-- ==== Sys2Proof/Word.lean ====
section
/-! DEFINITION. The byte, the color channel and the RGB888 color (00_scope.md R7, 30_encoding.md R59). -/

namespace Sys2Proof

/-- A byte: 8 bits with value 0 to 255 (R7). -/
abbrev Byte := BitVec 8

/-- The three color channels. -/
inductive Channel where
  | red
  | green
  | blue
deriving DecidableEq, Repr

/-- Format RGB888: a color is a triple of bytes (R59); a table entry is one (R11, R12). -/
structure Rgb where
  r : Byte
  g : Byte
  b : Byte
deriving DecidableEq, Repr

/-- The byte of one channel of a color. -/
def Rgb.channel (c : Rgb) : Channel → Byte
  | .red => c.r
  | .green => c.g
  | .blue => c.b

/-- The color (0, 0, 0). -/
def Rgb.black : Rgb := ⟨0, 0, 0⟩

end Sys2Proof
end

