-- ==== Sys2Proof/Config.lean ====
section
/-! DEFINITION. The implementation parameters of the CLM (00_scope.md R6) as plain data that a state
carries, the fixed geometry constants, and the values the spec leaves free. -/

namespace Sys2Proof

/-- How the tables come to hold their values (R6, R150): constants of the hardware, or built after reset. -/
inductive LutInitMode where
  | rom
  | build
deriving DecidableEq, Repr

/-- The level at which an operation is described (R5): as one transition (R37), or as one transition per
stream element (R91, R102, R117). The two give the same final state. Log 1. -/
inductive Level where
  | invocation
  | element
deriving DecidableEq, Repr

/-- Format SEGDESC (R16, R60): a run of `count` pixels from pixel `start` of a digit. A descriptor that
leaves its digit cannot be written down: a table holding one "is not a CLM and a model refuses it" (R17).
Log 6. -/
structure SegDesc where
  start : Byte := 0
  count : Byte := 0
  fits : start.toNat + count.toNat ≤ 188 := by decide
deriving DecidableEq, Repr, Inhabited

/-- `SEG_TABLE`: 32 descriptors (R14, R15). -/
abbrev SegTable := Vector SegDesc 32

/-- One region of the hue wheel: the channel at 255, the channel at 0, and whether the third falls
(`255 - rem`) or rises (`rem`) (R72: in every region exactly one of each). -/
structure RegionPattern where
  full : Channel
  zero : Channel
  falling : Bool
  distinct : full ≠ zero := by decide
deriving DecidableEq, Repr

/-- `WHEEL_PATTERN`: one pattern for each of the six regions (R6, R72). -/
abbrev WheelPattern := Vector RegionPattern 6

/-- The open parameters of the spec (R6, 92_eei_decisions.md "Open parameters") and the level. No step
changes them. -/
structure Params where
  level : Level
  lutInit : LutInitMode
  wheel : WheelPattern
  segTable : SegTable
  addrW : Nat
  addrW_pos : 0 < addrW := by decide
deriving DecidableEq, Repr

/-- What a byte of `OUT` holds after a reset during an operation (R152: "its old value or its new one");
`current` is what stood there when the reset came. Log 12. -/
inductive ResetPick where
  | old
  | current
  | new
deriving DecidableEq, Repr, Inhabited

namespace Config

/-- `LUT_SIZE` (R6). -/
def lutSize : Nat := 256
/-- `SEG_COUNT`: segments of one digit (R6, R15). -/
def segCount : Nat := 32
/-- `DIGIT_CAP`: pixels of one digit region (R6, R15). -/
def digitCap : Nat := 188
/-- `BPP`: bytes per output pixel (R6). -/
def bpp : Nat := 3
/-- `DIGIT_STRIDE`: bytes between consecutive digit regions (R6, R15). -/
def digitStride : Nat := 564

/-- The standard wheel of R72, the spec's default for `WHEEL_PATTERN`, supplied from general knowledge.
PRESUMED, unsafe. Log 7. -/
def standardWheel : WheelPattern :=
  ⟨#[⟨.red, .blue, false, by decide⟩, ⟨.green, .blue, true, by decide⟩, ⟨.green, .red, false, by decide⟩,
     ⟨.blue, .red, true, by decide⟩, ⟨.blue, .green, false, by decide⟩, ⟨.red, .green, true, by decide⟩], rfl⟩

/-- The hardware's `SEG_TABLE`. Its values are in no source (R14, U2): no proof can see them. Log 6. -/
opaque segTable : SegTable

/-- The value a read of register `CMD` returns (R21: unspecified), one for each draw. Log 13. -/
opaque freeByte : Nat → Byte

/-- Which value a byte of `OUT` has after a reset during an operation (R152), by draw and by offset.
Log 12. -/
opaque resetPick : Nat → Nat → ResetPick

/-- The parameters the reset state carries: the spec's defaults (R6), `SEG_TABLE` open. Logs 1, 5 to 8. -/
def params : Params :=
  { level := .invocation, lutInit := .rom, wheel := standardWheel, segTable := segTable, addrW := 32 }

end Config
end Sys2Proof
end

