-- ==== Sys2Proof/Syntax.lean ====
section
/-! DEFINITION. The eight instructions of spec/opcode_table.json (30_encoding.md) and the four places a
word of the CLM can come from. -/

namespace Sys2Proof

/-- Where a word is read: the register `CMD` (R51), a CompressedHSLStream or a CompressedPackedRGBStream
(R53), or the table builder, whose steps have no encoding (R62). -/
inductive Place where
  | command
  | hslStream
  | rgbStream
  | builder
deriving DecidableEq, Repr

/-- The instructions: three operations (R52), three stream element forms (R55 to R57) with the fields of
their formats (R50), two table builds (R62). -/
inductive Instr where
  | hsldec
  | rgbdec
  | segmap
  | pxDark (hue : Byte) (mag : BitVec 7)
  | pxLight (hue : Byte) (mag : BitVec 7)
  | pxRgb332 (r3 : BitVec 3) (g3 : BitVec 3) (b2 : BitVec 2)
  | buildHue
  | buildPack
deriving DecidableEq, Repr

end Sys2Proof
end

