-- ==== Sys2Proof/WellFormed.lean ====
section
/-! DEFINITION. Well-formedness: an instruction stands only in the place that has its format, and raw
descriptors and region patterns are accepted only when they are legal. -/

namespace Sys2Proof

/-- The one place an instruction can stand in: R52 for the operations, R55 to R57 for the element forms,
R62 for the builds. -/
def Instr.place : Instr → Place
  | .hsldec => .command
  | .rgbdec => .command
  | .segmap => .command
  | .pxDark _ _ => .hslStream
  | .pxLight _ _ => .hslStream
  | .pxRgb332 _ _ _ => .rgbStream
  | .buildHue => .builder
  | .buildPack => .builder

/-- An instruction is well formed at a place when that place holds its format (R50, R53). -/
def Instr.wellFormedAt (i : Instr) (p : Place) : Bool := i.place == p

/-- The instruction has an encoding: every instruction but the two builds (R62). -/
def Instr.encodable (i : Instr) : Bool := i.place != .builder

/-- The descriptor of two raw bytes, refused when it leaves its digit (R17). -/
def SegDesc.ofFields? (start count : Byte) : Option SegDesc :=
  if h : start.toNat + count.toNat ≤ 188 then some ⟨start, count, h⟩ else none

/-- The region pattern of two channels, refused when one channel is both full and zero (R72). -/
def RegionPattern.ofFields? (full zero : Channel) (falling : Bool) : Option RegionPattern :=
  if h : full ≠ zero then some ⟨full, zero, falling, h⟩ else none

end Sys2Proof
end

