-- ==== Sys2Proof/Decode.lean ====
section
/-! DEFINITION. The decoder, total on any bytes and rejecting by name, and the encoder (30_encoding.md
R50 to R58). -/

namespace Sys2Proof

/-- `v[hi:lo]` as a number (R7). -/
def field (v hi lo : Nat) : Nat := v / 2 ^ lo % 2 ^ (hi - lo + 1)

/-- Why a word is no instruction. -/
inductive DecodeError where
  /-- `OP = 3` (R58). -/
  | reservedOp
  /-- fewer bytes than the format has (R53). -/
  | truncated
  /-- the builder reads no word (R62). -/
  | noEncoding
deriving DecidableEq, Repr

/-- Format CMD8: `OP` in bits 1:0, bits 7:2 ignored (R51, R52, R58). -/
def decodeCommand (b : Byte) : Except DecodeError Instr :=
  match field b.toNat 1 0 with
  | 0 => .ok .hsldec
  | 1 => .ok .rgbdec
  | 2 => .ok .segmap
  | _ => .error .reservedOp

/-- Format HSL16: byte 0 hue, byte 1 `{mode, mag}` (R54 to R56). -/
def decodeHsl (hue light : Byte) : Instr :=
  if field light.toNat 7 7 = 0 then .pxDark hue (BitVec.ofNat 7 (field light.toNat 6 0))
  else .pxLight hue (BitVec.ofNat 7 (field light.toNat 6 0))

/-- Format RGB332: `rrrgggbb` (R57). -/
def decodeRgb332 (p : Byte) : Instr :=
  .pxRgb332 (BitVec.ofNat 3 (field p.toNat 7 5)) (BitVec.ofNat 3 (field p.toNat 4 2))
    (BitVec.ofNat 2 (field p.toNat 1 0))

/-- The instruction at the head of the bytes found at a place, and the bytes after it. -/
def decode : Place → List Byte → Except DecodeError (Instr × List Byte)
  | .command, b :: rest =>
    match decodeCommand b with
    | .ok i => .ok (i, rest)
    | .error e => .error e
  | .command, [] => .error .truncated
  | .hslStream, h :: l :: rest => .ok (decodeHsl h l, rest)
  | .hslStream, _ => .error .truncated
  | .rgbStream, p :: rest => .ok (decodeRgb332 p, rest)
  | .rgbStream, [] => .error .truncated
  | .builder, _ => .error .noEncoding

/-- The bytes of an instruction, the first at the lowest offset: reserved command bits 0 (R51), hue before
lightness (R31), the fields of R54 and R57; a build has none (R62). -/
def encode : Instr → List Byte
  | .hsldec => [0]
  | .rgbdec => [1]
  | .segmap => [2]
  | .pxDark hue mag => [hue, BitVec.ofNat 8 mag.toNat]
  | .pxLight hue mag => [hue, BitVec.ofNat 8 (128 + mag.toNat)]
  | .pxRgb332 r3 g3 b2 => [BitVec.ofNat 8 (r3.toNat * 32 + g3.toNat * 4 + b2.toNat)]
  | .buildHue => []
  | .buildPack => []

/-- The place and the bytes of a table word. A 16-bit word is an HSL16 element, hue (bits 15:8) at the
lower offset (R31). An 8-bit word does not say whether it is a CMD8 or an RGB332 word: it is read as a
command, and as an RGB332 element only where the command decoder has no operation. Log 17. -/
def tableWord (nbits w : Nat) : Option (Place × List Byte) :=
  if nbits = 16 then some (.hslStream, [BitVec.ofNat 8 (field w 15 8), BitVec.ofNat 8 (field w 7 0)])
  else if nbits = 8 then
    match decodeCommand (BitVec.ofNat 8 w) with
    | .ok _ => some (.command, [BitVec.ofNat 8 w])
    | .error _ => some (.rgbStream, [BitVec.ofNat 8 w])
  else none

/-- The instruction the decoder reads from a word of spec/opcode_table.json. -/
def decodeTableWord (nbits w : Nat) : Option Instr :=
  match tableWord nbits w with
  | none => none
  | some (p, bs) =>
    match decode p bs with
    | .ok (i, _) => some i
    | .error _ => none

end Sys2Proof
end

