-- ==== Sys2Proof/Machine/Tables.lean ====
section
/-! DEFINITION. The contents of the two color tables (40_lut_build.md): hue scaling, the wheel, bit
replication, and the shifts of 00_scope.md R8. -/

namespace Sys2Proof.Machine

/-- `a >> k` is `a div 2^k` (R8). -/
def shr (a k : Nat) : Nat := a / 2 ^ k

/-- `a << k` is `a * 2^k`, not truncated (R8). -/
def shl (a k : Nat) : Nat := a * 2 ^ k

/-- The scaled hue degree `H` (R71). -/
def hueDegree (h : Byte) : Nat := shr (h.toNat * 360) 8

/-- `region` (R71). -/
def hueRegion (h : Byte) : Nat := hueDegree h / 60

/-- `rem` (R71). -/
def hueRem (h : Byte) : Nat := hueDegree h % 60 * 255 / 60

/-- `region` is in 0 to 5, so the six-way split is total (R71). -/
theorem hueRegion_lt (h : Byte) : hueRegion h < 6 := by
  have := h.isLt
  simp only [hueRegion, hueDegree, shr]
  omega

/-- One channel of a region: 255, 0, or the rising or falling value (R72). -/
def regionChannel (p : RegionPattern) (rem : Nat) (c : Channel) : Byte :=
  if c = p.full then 255
  else if c = p.zero then 0
  else BitVec.ofNat 8 (if p.falling then 255 - rem else rem)

/-- `Wheel(h)` under a wheel pattern (R72). -/
def wheelColor (w : WheelPattern) (h : Byte) : Rgb :=
  let p := w[hueRegion h]'(hueRegion_lt h)
  ⟨regionChannel p (hueRem h) .red, regionChannel p (hueRem h) .green, regionChannel p (hueRem h) .blue⟩

/-- `Rep3` (R75). -/
def rep3 (v : Nat) : Byte := BitVec.ofNat 8 (shl v 5 + shl v 2 + shr v 1)

/-- `Rep2` (R75). -/
def rep2 (v : Nat) : Byte := BitVec.ofNat 8 (shl v 6 + shl v 4 + shl v 2 + v)

/-- The entry `BUILD.PACK` stores for the packed byte `p` (R74). -/
def packColor (p : Byte) : Rgb :=
  ⟨rep3 (field p.toNat 7 5), rep3 (field p.toNat 4 2), rep2 (field p.toNat 1 0)⟩

/-- A table of 256 entries, entry `i` being `f i`. -/
def tableOf (f : Byte → Rgb) : Vector Rgb 256 :=
  ⟨((List.range 256).map fun i => f (BitVec.ofNat 8 i)).toArray, by simp⟩

/-- The contents `BUILD.HUE` gives `HUE_LUT` (R70). -/
def hueTable (w : WheelPattern) : Vector Rgb 256 := tableOf (wheelColor w)

/-- The contents `BUILD.PACK` gives `PACK_LUT` (R74). -/
def packTable : Vector Rgb 256 := tableOf packColor

/-- The unobservable contents of a table before its build (R77). DESIGN CHOICE. Log 8. -/
def unbuiltTable : Vector Rgb 256 := tableOf fun _ => Rgb.black

/-- Entry `i` of a table (R9). -/
def entry (t : Vector Rgb 256) (i : Byte) : Rgb := t[i.toNat]'(i.isLt)

end Sys2Proof.Machine
end

