-- ==== Sys2Proof/Machine/State.lean ====
section
/-! DEFINITION. The state of the CLM and of the system around it (10_state.md), the reasons a step can
stop, and the state after reset. -/

namespace Sys2Proof.Machine

/-- The contents of a byte space: the listed offsets, strictly rising, none holding 0; every other offset
reads 0. DESIGN CHOICE for a byte nobody has written, unsafe. Log 9. -/
abbrev Memory := List Host.Cell

/-- No two neighbouring cells are out of order, and none holds the value an unlisted offset reads as. -/
def Memory.wfFrom (lowest : Nat) : Memory → Bool
  | [] => true
  | (a, b) :: rest => decide (lowest ≤ a) && decide (b ≠ 0) && Memory.wfFrom (a + 1) rest

/-- The canonical form: offsets strictly rising, no cell equal to what an unlisted offset reads as. -/
def Memory.wf (m : Memory) : Bool := Memory.wfFrom 0 m

/-- A view the host lends (R23, R24): a byte sequence at offsets 0 to `size - 1`. -/
structure View where
  size : Nat
  mem : Memory
deriving DecidableEq, Repr

/-- A view's memory is canonical and lists only offsets the view has. -/
def View.wf (v : View) : Bool := v.mem.wf && v.mem.all fun c => decide (c.1 < v.size)

/-- The outcome of an operation (R20, R131). -/
inductive Result where
  | ok
  | invalidLength
  | bufferTooSmall
  | outOfBounds
deriving DecidableEq, Repr

/-- The four registers of the map (R21). -/
inductive Reg where
  | cmd
  | inLen
  | outCap
  | status
deriving DecidableEq, Repr

/-- One action of the host (R27, R140, R152, R154). Log 2. -/
inductive HostAction where
  /-- a register write; writing `CMD` starts an operation (R21, R140). -/
  | write (r : Reg) (v : Nat)
  /-- a register read (R21). -/
  | read (r : Reg)
  /-- the host binds an input view (R154 (2)). -/
  | lendIn (v : View)
  /-- the host binds an output view (R154 (3)). -/
  | lendOut (v : View)
  /-- the host stores one byte of its input buffer (R27). -/
  | storeIn (a : Nat) (b : Byte)
  /-- the host stores one byte of its output buffer (R27). -/
  | storeOut (a : Nat) (b : Byte)
  /-- the host reads one byte of its input buffer (R27). -/
  | loadIn (a : Nat)
  /-- the host reads one byte of its output buffer (R27). -/
  | loadOut (a : Nat)
  /-- the host makes no move for one step. -/
  | wait
  /-- reset is asserted after so many steps of the CLM (R150, R152). -/
  | reset (after : Nat)
deriving DecidableEq, Repr

/-- Why the machine stops with a fault. The spec's own fault kinds are no stop: they are results of an
operation (R130) and stand in `RESULT`. Both constructors are safe: they stop where the spec calls the
outcome undefined. Log 11. -/
inductive Fault where
  /-- raised by a read of `IN` at an offset the view really lent does not have, or not below `IN_LEN`
  (R9, R154 (4), R159). Safe. -/
  | readOutsideView
  /-- raised by a write of `OUT` at an offset the view really lent does not have, or not below `OUT_CAP`
  (R9, R154 (4), R159). Safe. -/
  | writeOutsideView
deriving DecidableEq, Repr

/-- Why the model gives a step no meaning. All are safe: the spec gives none either. -/
inductive Refusal where
  /-- raised by exec for an instruction that has no meaning yet (no arm raises it now). Safe. -/
  | notModelled (mnemonic : String)
  /-- raised by a command or an element while `LUT_READY = 0` (R140, R153). Safe. -/
  | lutNotReady
  /-- raised by a command while `BUSY = 1` (R140, R155). Safe. -/
  | commandWhileBusy
  /-- raised by a command when `IN_LEN` or `OUT_CAP` has not been written since reset (R28: it "is
  refused"; U11 and D17 say the same). Safe. Log 3. -/
  | unwrittenArgument
  /-- raised by a word that is no instruction: the reserved `OP = 3` (R58, U6). Safe. -/
  | undecodable (why : DecodeError)
  /-- raised by an element form while no operation runs: an element stands only in a stream (R53). Safe.
  Log 14. -/
  | noRunningOperation
  /-- raised by an element form of the other stream format (R53). Safe. Log 14. -/
  | wrongElementForm
  /-- raised by an element form when the stream has no element left (R91, R102, R117). Safe. Log 14. -/
  | streamExhausted
  /-- raised by a host action that no host can make: a value wider than its register, a view that is not
  canonical, a byte outside the host's own buffer. Safe. Logs 5, 9, 11. -/
  | illFormedHostAction
deriving DecidableEq, Repr

/-- The complete state (R10), with the parameters it depends on and the model's own fields. -/
structure State where
  /-- the constant parameters, `SEG_TABLE` among them (R6, R14). -/
  hw : Params
  /-- `HUE_LUT` (R11). -/
  hueLut : Vector Rgb 256
  /-- `PACK_LUT` (R12). -/
  packLut : Vector Rgb 256
  /-- `BUILD.HUE` is complete (R25, R77). -/
  hueBuilt : Bool
  /-- `BUILD.PACK` is complete (R25, R77). -/
  packBuilt : Bool
  /-- `OP` (R18). -/
  op : BitVec 2
  /-- `IN_LEN`, below `2^ADDR_W` (R18). -/
  inLen : Nat
  /-- `OUT_CAP`, below `2^ADDR_W` (R18). -/
  outCap : Nat
  /-- `IN_LEN` has been written since reset (R28). -/
  inLenWritten : Bool
  /-- `OUT_CAP` has been written since reset (R28). -/
  outCapWritten : Bool
  /-- `POS`, below `2^ADDR_W` (R19). -/
  pos : Nat
  /-- `RESULT` (R20). -/
  result : Result
  /-- `DONE` (R22). -/
  done : Bool
  /-- `BUSY` (R22). -/
  busy : Bool
  /-- `LUT_READY` (R22). -/
  lutReady : Bool
  /-- `IN` (R23). -/
  inView : View
  /-- `OUT` (R24). -/
  outView : View
  /-- the model's own: what the host will do next (log 2). -/
  host : List HostAction
  /-- the model's own: what the host's last read returned (log 13). -/
  readData : Nat
  /-- the model's own: the contents of `OUT` when the running operation began, empty when none runs
  (R152; log 12). -/
  outStart : Memory
  /-- the model's own: how many free values have been drawn (logs 12, 13). -/
  draws : Nat
deriving DecidableEq, Repr

/-- The state after reset under given parameters (R28, R150), with no view lent and nothing for the host to
do. `OP`, `IN_LEN` and `OUT_CAP` are unspecified: 0 is a DESIGN CHOICE, unsafe (log 3). -/
def State.resetOf (hw : Params) : State :=
  { hw := hw
    hueLut := match hw.lutInit with | .rom => hueTable hw.wheel | .build => unbuiltTable
    packLut := match hw.lutInit with | .rom => packTable | .build => unbuiltTable
    hueBuilt := match hw.lutInit with | .rom => true | .build => false
    packBuilt := match hw.lutInit with | .rom => true | .build => false
    op := 0
    inLen := 0
    outCap := 0
    inLenWritten := false
    outCapWritten := false
    pos := 0
    result := .ok
    done := false
    busy := false
    lutReady := match hw.lutInit with | .rom => true | .build => false
    inView := ⟨0, []⟩
    outView := ⟨0, []⟩
    host := []
    readData := 0
    outStart := []
    draws := 0 }

/-- The machine right after reset (R28, R150) under the spec's default parameters (R6). -/
def State.reset : State := State.resetOf Config.params

end Sys2Proof.Machine
end

