-- ==== Sys2Proof/Machine/Operands.lean ====
section
/-! DEFINITION. Operand assembly and arithmetic (30_encoding.md R61, 41_lightness_scaling.md,
44_segment_scatter.md R111): the lightness scaler, the pixel bytes, the segment geometry, the element
formats of the operations. -/

namespace Sys2Proof.Machine

/-- The lightness byte `{mode, mag}` of an element form (R54). -/
def lightByte (mode : Bool) (mag : BitVec 7) : Byte :=
  BitVec.ofNat 8 (shl mode.toNat 7 + mag.toNat)

/-- `Dark(c, l)` (R81). -/
def darkChannel (c l : Byte) : Byte := BitVec.ofNat 8 (shr (c.toNat * shl l.toNat 1) 8)

/-- `Light(c, l)` (R82). -/
def lightChannel (c l : Byte) : Byte :=
  BitVec.ofNat 8 (c.toNat + shr ((255 - c.toNat) * shl (l.toNat - 128) 1) 8)

/-- The three channels of a base color faded toward black (R80, R81). -/
def shadeDark (base : Rgb) (l : Byte) : Rgb :=
  ⟨darkChannel base.r l, darkChannel base.g l, darkChannel base.b l⟩

/-- The three channels of a base color faded toward white (R80, R82). -/
def shadeLight (base : Rgb) (l : Byte) : Rgb :=
  ⟨lightChannel base.r l, lightChannel base.g l, lightChannel base.b l⟩

/-- `Shade(base, l)` (R80). -/
def shade (base : Rgb) (l : Byte) : Rgb :=
  if l.toNat < 128 then shadeDark base l else shadeLight base l

/-- The packed byte of the three fields of an RGB332 element (R57). -/
def packedByte (r3 g3 : BitVec 3) (b2 : BitVec 2) : Byte :=
  BitVec.ofNat 8 (shl r3.toNat 5 + shl g3.toNat 2 + b2.toNat)

/-- The three bytes of an output pixel, red at the lowest offset (R32). -/
def pixelBytes (c : Rgb) : List Byte := [c.r, c.g, c.b]

/-- `count` pixels of one color (R112). -/
def fillBytes (c : Rgb) : Nat → List Byte
  | 0 => []
  | k + 1 => pixelBytes c ++ fillBytes c k

/-- `SEG_TABLE[s mod 32]` (R111). -/
def segDesc (t : SegTable) (s : Nat) : SegDesc := t[s % 32]'(Nat.mod_lt s (by decide))

/-- `seg_lo(s)` (R39). -/
def segLo (t : SegTable) (s : Nat) : Nat :=
  s / 32 * Config.digitStride + (segDesc t s).start.toNat * Config.bpp

/-- `seg_hi(s)`, exclusive (R39). -/
def segHi (t : SegTable) (s : Nat) : Nat := segLo t s + (segDesc t s).count.toNat * Config.bpp

/-- The stream an operation consumes (R52, R53); `OP = 3` has none (R58). -/
def elementPlace (op : BitVec 2) : Option Place :=
  match op.toNat with
  | 0 => some .hslStream
  | 1 => some .rgbStream
  | 2 => some .hslStream
  | _ => none

/-- The length of an element in bytes (R53). -/
def elementLength (op : BitVec 2) : Nat :=
  match elementPlace op with
  | some .rgbStream => 1
  | _ => 2

/-- The element count `n` of a stream of `len` bytes (R53). -/
def elementCount (op : BitVec 2) (len : Nat) : Nat := len / elementLength op

end Sys2Proof.Machine
end

