-- ==== Sys2Proof/Machine/Flags.lean ====
section
/-! DEFINITION. The result codes, the status register and the register numbers (10_state.md R20 to R22,
60_exceptions.md R131), and the checks that decide a result (R132, R135, R136). The CLM has no
arithmetic flag (R20). -/

namespace Sys2Proof.Machine

/-- The code of a result (R131). -/
def resultCode : Result → Nat
  | .ok => 0
  | .invalidLength => 1
  | .bufferTooSmall => 2
  | .outOfBounds => 3

/-- The register of a number (R21). -/
def regOfNumber? : Nat → Option Reg
  | 0 => some .cmd
  | 1 => some .inLen
  | 2 => some .outCap
  | 3 => some .status
  | _ => none

/-- What register `STATUS` reads as: `RESULT` 1:0, `DONE` 2, `BUSY` 3, `LUT_READY` 4, 7:5 zero (R21). -/
def statusByte (s : State) : Byte :=
  BitVec.ofNat 8
    (resultCode s.result + s.done.toNat * 4 + s.busy.toNat * 8 + s.lutReady.toNat * 16)

/-- The checks of `HSLDEC`, in order (R90, R133, R138). -/
def hsldecCheck (s : State) : Option Result :=
  if s.inLen % 2 = 1 then some .invalidLength
  else if s.outCap < 3 * (s.inLen / 2) then some .bufferTooSmall
  else none

/-- The check of `RGBDEC` (R100, R138). -/
def rgbdecCheck (s : State) : Option Result :=
  if s.outCap < 3 * s.inLen then some .bufferTooSmall else none

/-- Every segment of the stream ends inside `OUT_CAP` (R113). -/
def segmentsFit (t : SegTable) (n cap : Nat) : Bool :=
  (List.range n).all fun k => decide (segHi t k ≤ cap)

/-- The checks of `SEGMAP`, in order (R110, R113, R114, R133). -/
def segmapCheck (s : State) : Option Result :=
  if s.inLen % 2 = 1 then some .invalidLength
  else if segmentsFit s.hw.segTable (s.inLen / 2) s.outCap then none
  else some .outOfBounds

/-- The checks of the operation `OP` names (R138). -/
def operationCheck (s : State) : Option Result :=
  match s.op.toNat with
  | 0 => hsldecCheck s
  | 1 => rgbdecCheck s
  | 2 => segmapCheck s
  | _ => none

end Sys2Proof.Machine
end

