-- ==== Sys2Proof/Machine/Ops.lean ====
section
/-! DEFINITION. The named operations: bytes of a view, the start of an operation (60_exceptions.md R140),
its end (R141), fault entry (R134), the painting of one element's color, and reset
(70_reset_and_hazards.md R150 to R152). There is no return from a fault (R142). -/

namespace Sys2Proof.Machine

/-- The outcome of a step of the CLM. -/
abbrev Out := Host.Outcome State Fault Refusal

/-- Go on from a next state; a fault or a refusal stays. -/
def andThen (o : Out) (k : State → Out) : Out :=
  match o with
  | .next s => k s
  | .fault f => .fault f
  | .refused r => .refused r

/-! ### State updates -/

/-- Replace the contents of the output view. -/
def setOut (m : Memory) (s : State) : State := { s with outView := { s.outView with mem := m } }

/-- Advance `POS` by one (R19). -/
def advancePos (s : State) : State := { s with pos := s.pos + 1 }

/-- What starting an operation does to the state (R140): `OP` takes the code, `BUSY <- 1`, `DONE <- 0`,
`POS <- 0`; the contents of `OUT` are noted for R152. -/
def started (op : BitVec 2) (s : State) : State :=
  { s with op := op, busy := true, done := false, pos := 0, outStart := s.outView.mem }

/-- End of an operation (R141): `RESULT` takes its value, `BUSY <- 0`, `DONE <- 1`; `POS` stays (log 4). -/
def endOp (k : Result) (s : State) : State :=
  { s with result := k, busy := false, done := true, outStart := [] }

/-- Fault entry, `raise K` (R134): `RESULT <- K`, `POS` stays 0, nothing written, the operation ends. -/
def raiseFault (k : Result) (s : State) : State := endOp k { s with pos := 0 }

/-! ### Bytes -/

/-- The byte at an offset; an unlisted offset reads 0 (log 9). -/
def Memory.read : Memory → Nat → Byte
  | [], _ => 0
  | (k, b) :: rest, a => if k = a then b else Memory.read rest a

/-- Store a byte, keeping the canonical form: storing 0 removes the cell. -/
def Memory.write : Memory → Nat → Byte → Memory
  | [], a, b => if b = 0 then [] else [(a, b)]
  | (k, c) :: rest, a, b =>
    if a < k then (if b = 0 then (k, c) :: rest else (a, b) :: (k, c) :: rest)
    else if a = k then (if b = 0 then rest else (a, b) :: rest)
    else (k, c) :: Memory.write rest a b

/-- Store bytes at rising offsets. -/
def Memory.writeBytes : Memory → Nat → List Byte → Memory
  | m, _, [] => m
  | m, a, b :: bs => Memory.writeBytes (m.write a b) (a + 1) bs

/-- `MemRead(IN, a, 1)` (R9): the byte of the input view, if the offset exists (log 11). -/
def readIn (s : State) (a : Nat) : Option Byte :=
  if a < s.inLen ∧ a < s.inView.size then some (s.inView.mem.read a) else none

/-- The bytes of the input view at `n` offsets from `a` (R35: one-byte reads in rising order). -/
def readInBytes (s : State) (a : Nat) : Nat → Option (List Byte)
  | 0 => some []
  | n + 1 =>
    match readIn s a, readInBytes s (a + 1) n with
    | some b, some bs => some (b :: bs)
    | _, _ => none

/-- `MemWrite(OUT, a, 1, v)` (R9): defined only where the offset exists (log 11). -/
def writeOut (a : Nat) (b : Byte) (s : State) : Out :=
  if a < s.outCap ∧ a < s.outView.size then
    .next (setOut (s.outView.mem.write a b) s)
  else .fault .writeOutsideView

/-- One-byte writes at rising offsets (R9, R35, R42). -/
def writeOutBytes : Nat → List Byte → State → Out
  | _, [], s => .next s
  | a, b :: bs, s => andThen (writeOut a b s) (writeOutBytes (a + 1) bs)

/-! ### The start of an operation -/

/-- Start of an operation (R140). Refused while the tables are not ready (R153), while an operation runs
(R155), and when an argument register has not been written since reset (R28). -/
def beginOp (op : BitVec 2) (s : State) : Out :=
  if s.lutReady = false then .refused .lutNotReady
  else if s.busy = true then .refused .commandWhileBusy
  else if (s.inLenWritten && s.outCapWritten) = false then .refused .unwrittenArgument
  else .next (started op s)

/-! ### One element -/

/-- Why an element form cannot run now: it stands only in the stream of a running operation that reads its
format, with the tables ready (R53, R91, R102, R117, R153; log 14). -/
def elementGuard (p : Place) (s : State) : Option Refusal :=
  if s.lutReady = false then some .lutNotReady
  else if s.busy = false then some .noRunningOperation
  else if elementPlace s.op ≠ some p then some .wrongElementForm
  else if elementCount s.op s.inLen ≤ s.pos then some .streamExhausted
  else none

/-- The offset an element's color is written at: `3 * POS` for the decoders (R38), `seg_lo(POS)` for
`SEGMAP` (R39). -/
def paintOffset (s : State) : Nat :=
  if s.op = 2 then segLo s.hw.segTable s.pos else 3 * s.pos

/-- The bytes written for an element of a color: one pixel for the decoders (R90, R100), the segment's
`count` pixels for `SEGMAP` (R112). -/
def paintBytes (s : State) (c : Rgb) : List Byte :=
  if s.op = 2 then fillBytes c (segDesc s.hw.segTable s.pos).count.toNat else pixelBytes c

/-- Write an element's color and advance `POS` by one (R91, R102, R117). -/
def paint (c : Rgb) (s : State) : Out :=
  andThen (writeOutBytes (paintOffset s) (paintBytes s c) s) fun t => .next (advancePos t)

/-- Run one element form: its guard, then its color. -/
def runForm (p : Place) (c : Rgb) (s : State) : Out :=
  match elementGuard p s with
  | some r => .refused r
  | none => paint c s

/-! ### The host's side of the registers and of reset -/

/-- Register reads (R21): `CMD` returns an unspecified value (a free value, log 13). -/
def readReg (r : Reg) (s : State) : Nat :=
  match r with
  | .cmd => (Config.freeByte s.draws).toNat
  | .inLen => s.inLen
  | .outCap => s.outCap
  | .status => (statusByte s).toNat

/-- A value fits its register (R21): 8 bits for `CMD` and `STATUS`, `ADDR_W` bits for the lengths. -/
def regFits (hw : Params) (r : Reg) (v : Nat) : Bool :=
  match r with
  | .cmd => decide (v < 256)
  | .inLen => decide (v < 2 ^ hw.addrW)
  | .outCap => decide (v < 2 ^ hw.addrW)
  | .status => decide (v < 256)

/-- A host action that a host can make (logs 5, 9, 11). -/
def hostActionFits (s : State) : HostAction → Bool
  | .write r v => regFits s.hw r v
  | .read _ => true
  | .lendIn v => v.wf
  | .lendOut v => v.wf
  | .storeIn a _ => decide (a < s.inView.size)
  | .storeOut a _ => decide (a < s.outView.size)
  | .loadIn a => decide (a < s.inView.size)
  | .loadOut a => decide (a < s.outView.size)
  | .wait => true
  | .reset _ => true

/-- The offsets the running operation could have written (R38, R39) that the output view has. -/
def targetOffsets (s : State) : List Nat :=
  (if s.op = 2 then
      (List.range (elementCount s.op s.inLen)).flatMap fun k =>
        List.range' (segLo s.hw.segTable k) ((segDesc s.hw.segTable k).count.toNat * Config.bpp)
    else List.range (3 * elementCount s.op s.inLen)).filter fun a => decide (a < s.outView.size)

/-- The byte at a target offset after a reset during an operation, `final` being the contents `OUT` would
have had: its old value or a new one, unspecified which (R152; log 12). -/
def resetByte (s : State) (final : Memory) (a : Nat) : Byte :=
  match Config.resetPick s.draws a with
  | .old => s.outStart.read a
  | .current => s.outView.mem.read a
  | .new => final.read a

/-- `OUT` after a reset during an operation: the bytes the operation could have written are as `resetByte`
says, all others as they were (R152). -/
def scrambled (s : State) (final : Memory) : Memory :=
  (targetOffsets s).foldl (fun m a => m.write a (resetByte s final a)) s.outView.mem

/-- Reset as an event (R28, R150, R151): every field at its reset value, the views left as they are, but for
the bytes R152 speaks of. -/
def applyReset (s : State) (final : Memory) : State :=
  { State.resetOf s.hw with
    inView := s.inView
    outView := if s.busy then { s.outView with mem := scrambled s final } else s.outView
    host := s.host
    readData := s.readData
    draws := if s.busy then s.draws + 1 else s.draws }

end Sys2Proof.Machine
end

