-- ==== Sys2Proof/Machine/Builds.lean ====
section
/-! DEFINITION. The meanings of the table builds `BUILD.HUE` and `BUILD.PACK` (40_lut_build.md). -/

namespace Sys2Proof.Machine

/-- `BUILD.HUE` (R70): fill `HUE_LUT`; `LUT_READY` rises when both builds are complete (R77). It runs once:
a table once built "is kept and not rebuilt" (R48), so a second build changes nothing (R13). Log 8. -/
def execBuildHue (s : State) : Out :=
  if s.hueBuilt then .next s
  else .next { s with hueLut := hueTable s.hw.wheel, hueBuilt := true, lutReady := s.packBuilt }

/-- `BUILD.PACK` (R74): fill `PACK_LUT`; `LUT_READY` rises when both builds are complete (R77). It runs
once, as `BUILD.HUE` does. Log 8. -/
def execBuildPack (s : State) : Out :=
  if s.packBuilt then .next s
  else .next { s with packLut := packTable, packBuilt := true, lutReady := s.hueBuilt }

end Sys2Proof.Machine
end

