-- ==== Sys2Proof/Machine/Elements.lean ====
section
/-! DEFINITION. The meanings of the stream element forms `PX.DARK`, `PX.LIGHT` (41_lightness_scaling.md)
and `PX.RGB332` (43_packed_rgb_decoder.md). -/

namespace Sys2Proof.Machine

/-- `PX.DARK`: the base color of the hue faded toward black (R80, R81), written as the running operation
says (R91, R117). -/
def execPxDark (hue : Byte) (mag : BitVec 7) (s : State) : Out :=
  runForm .hslStream (shadeDark (entry s.hueLut hue) (lightByte false mag)) s

/-- `PX.LIGHT`: the base color of the hue faded toward white (R80, R82), written as the running operation
says (R91, R117). -/
def execPxLight (hue : Byte) (mag : BitVec 7) (s : State) : Out :=
  runForm .hslStream (shadeLight (entry s.hueLut hue) (lightByte true mag)) s

/-- `PX.RGB332`: direct look-up in `PACK_LUT` (R101), written as one pixel (R102). -/
def execPxRgb332 (r3 g3 : BitVec 3) (b2 : BitVec 2) (s : State) : Out :=
  runForm .rgbStream (entry s.packLut (packedByte r3 g3 b2)) s

end Sys2Proof.Machine
end

