-- ==== Sys2Proof/Machine/Bulk.lean ====
section
/-! DEFINITION. The meanings of the three operations `HSLDEC` (42_hsl_decoder.md), `RGBDEC`
(43_packed_rgb_decoder.md) and `SEGMAP` (44_segment_scatter.md). -/

namespace Sys2Proof.Machine

/-- The bytes of the element at `POS` (R53: element `i` stands at offset `i * length`). -/
def elementBytes (s : State) : Option (List Byte) :=
  readInBytes s (elementLength s.op * s.pos) (elementLength s.op)

/-- Run a decoded stream element. No stream holds a command or a build. -/
def runElement (i : Instr) (s : State) : Out :=
  match i with
  | .pxDark hue mag => execPxDark hue mag s
  | .pxLight hue mag => execPxLight hue mag s
  | .pxRgb332 r3 g3 b2 => execPxRgb332 r3 g3 b2 s
  | .hsldec => .refused .wrongElementForm
  | .rgbdec => .refused .wrongElementForm
  | .segmap => .refused .wrongElementForm
  | .buildHue => .refused .wrongElementForm
  | .buildPack => .refused .wrongElementForm

/-- One element step (R91, R102, R117): fetch the element at `POS`, decode it, run it. -/
def elementStep (s : State) : Out :=
  match elementPlace s.op with
  | none => .refused (.undecodable .reservedOp)
  | some p =>
    match elementBytes s with
    | none => .fault .readOutsideView
    | some bs =>
      match decode p bs with
      | .ok (i, _) => runElement i s
      | .error e => .refused (.undecodable e)

/-- Some element steps in a row, in stream order (R42). -/
def runElements : Nat → State → Out
  | 0, s => .next s
  | k + 1, s => andThen (elementStep s) (runElements k)

/-- The element steps that remain, then the end with `OK` (R90, R100, R110, R141). -/
def runToEnd (s : State) : Out :=
  andThen (runElements (elementCount s.op s.inLen - s.pos) s) fun t => .next (endOp .ok t)

/-- After the start and the checks: at the invocation level the whole stream is one transition (R37); at the
element level the operation is left running (R91). Log 1. -/
def proceed (s : State) : Out :=
  match s.hw.level with
  | .invocation => runToEnd s
  | .element => .next s

/-- An operation: start (R140), checks before any access (R47, R134), then the stream. -/
def runOperation (op : BitVec 2) (check : State → Option Result) (s : State) : Out :=
  andThen (beginOp op s) fun t =>
    match check t with
    | some k => .next (raiseFault k t)
    | none => proceed t

/-- `HSLDEC` (R90). -/
def execHsldec (s : State) : Out := runOperation 0 hsldecCheck s

/-- `RGBDEC` (R100). -/
def execRgbdec (s : State) : Out := runOperation 1 rgbdecCheck s

/-- `SEGMAP` (R110), hardened (R113, R114). -/
def execSegmap (s : State) : Out := runOperation 2 segmapCheck s

end Sys2Proof.Machine
end

