-- ==== Sys2Proof/Machine/Dispatch.lean ====
section
/-! DEFINITION. One arm per instruction. -/

namespace Sys2Proof.Machine

def exec (i : Instr) (s : State) : Host.Outcome State Fault Refusal :=
  match i with
  | .hsldec => Sys2Proof.Machine.execHsldec s
  | .rgbdec => Sys2Proof.Machine.execRgbdec s
  | .segmap => Sys2Proof.Machine.execSegmap s
  | .pxDark hue mag => Sys2Proof.Machine.execPxDark hue mag s
  | .pxLight hue mag => Sys2Proof.Machine.execPxLight hue mag s
  | .pxRgb332 r3 g3 b2 => Sys2Proof.Machine.execPxRgb332 r3 g3 b2 s
  | .buildHue => Sys2Proof.Machine.execBuildHue s
  | .buildPack => Sys2Proof.Machine.execBuildPack s

end Sys2Proof.Machine
end

