-- ==== Sys2Proof/Machine/Sequencer.lean ====
section
/-! DEFINITION. Who moves in a step and what it does: the table builder, the running operation, the host,
or reset (60_exceptions.md R139 to R143, 70_reset_and_hazards.md R150 to R156). Log 2. -/

namespace Sys2Proof.Machine

/-- The build the CLM runs next in the building phase; the order is unobservable (R77). Log 8. -/
def nextBuild (s : State) : Instr := if s.hueBuilt then .buildPack else .buildHue

/-- The running phase (R91, R102, R117): the element at `POS`, or the end when the stream is consumed. -/
def runningStep (s : State) : Out :=
  if s.pos < elementCount s.op s.inLen then elementStep s else .next (endOp .ok s)

/-- A step of the CLM itself, by its phase (R143): running, ready (idle, R151; log 19), building (R150). -/
def clmStep (s : State) : Out :=
  if s.busy then runningStep s
  else if s.lutReady then .next s
  else exec (nextBuild s) s

/-- A write of register `CMD` (R51, R140): the byte is decoded and the operation runs. -/
def commandWrite (v : Nat) (s : State) : Out :=
  match decode .command [BitVec.ofNat 8 v] with
  | .ok (i, _) => exec i s
  | .error e => .refused (.undecodable e)

/-- A register write by the host (R21), in the building phase too (log 20); a write to `STATUS` is ignored. -/
def registerWrite (r : Reg) (v : Nat) (s : State) : Out :=
  match r with
  | .cmd => commandWrite v s
  | .inLen => .next { s with inLen := v, inLenWritten := true }
  | .outCap => .next { s with outCap := v, outCapWritten := true }
  | .status => .next s

/-- A register read by the host (R21); a read of `CMD` draws a free value (log 13). -/
def registerRead (r : Reg) (s : State) : Out :=
  .next { s with
    readData := readReg r s
    draws := match r with
      | .cmd => s.draws + 1
      | .inLen => s.draws
      | .outCap => s.draws
      | .status => s.draws }

/-- What a host action does while no operation runs (R27, R154). A reset is taken by `sequencerStep`. -/
def hostStep (a : HostAction) (s : State) : Out :=
  if hostActionFits s a = false then .refused .illFormedHostAction
  else match a with
    | .write r v => registerWrite r v s
    | .read r => registerRead r s
    | .lendIn v => .next { s with inView := v }
    | .lendOut v => .next { s with outView := v }
    | .storeIn a b => .next { s with inView := { s.inView with mem := s.inView.mem.write a b } }
    | .storeOut a b => .next { s with outView := { s.outView with mem := s.outView.mem.write a b } }
    | .loadIn a => .next { s with readData := (s.inView.mem.read a).toNat }
    | .loadOut a => .next { s with readData := (s.outView.mem.read a).toNat }
    | .wait => clmStep s
    | .reset _ => .next s

/-- `OUT` as the running operation would have left it, for R152. -/
def finalOut (s : State) : Memory :=
  match runToEnd s with
  | .next t => t.outView.mem
  | .fault _ => s.outView.mem
  | .refused _ => s.outView.mem

/-- Reset now (R150 to R152). -/
def resetStep (s : State) : State := applyReset s (finalOut s)

/-- One step. A due reset comes first; a reset that is not yet due lets the CLM move and comes one step
nearer; while `BUSY = 1` the CLM moves and the host's next action is held (R22, R156); else the host acts;
with nothing for the host to do, the CLM moves. -/
def sequencerStep (s : State) : Out :=
  match s.host with
  | [] => clmStep s
  | .reset 0 :: rest => .next (resetStep { s with host := rest })
  | .reset (k + 1) :: rest => clmStep { s with host := .reset k :: rest }
  | a :: rest => if s.busy then clmStep s else hostStep a { s with host := rest }

/-- A state whose next step writes a byte to `CMD` (R154): both arguments count as written, nothing runs,
the tables are ready. -/
def withCommand (s : State) (b : Byte) : State :=
  { s with
    busy := false
    lutReady := true
    inLenWritten := true
    outCapWritten := true
    host := .write .cmd b.toNat :: s.host }

/-- A state whose next step fetches the given bytes as the first element of a running operation, with room
for one pixel in `OUT`. -/
def withElement (s : State) (op : BitVec 2) (bs : List Byte) : State :=
  { s with
    op := op
    busy := true
    done := false
    lutReady := true
    pos := 0
    inLen := bs.length
    outCap := 3
    inView := ⟨bs.length, Memory.writeBytes [] 0 bs⟩
    outView := { s.outView with size := max s.outView.size 3 }
    outStart := s.outView.mem
    host := [] }

end Sys2Proof.Machine
end

