-- ==== Sys2Proof/Machine/Step.lean ====
section
/-! DEFINITION. The step of the machine, and a state whose next step runs a given word. -/

namespace Sys2Proof.Machine

/-- One step of the CLM and its host. -/
def step (s : State) : Host.Outcome State Fault Refusal := sequencerStep s

/-- The state whose next step fetches and runs the word `w` of `nbits` bits, numbered as
spec/opcode_table.json numbers it (logs 15, 17): a command is the host's next write of `CMD`, an element is
the first of a running operation; a word the table decoder has no place for changes nothing. -/
def State.withFetchWord (s : State) (nbits w : Nat) : State :=
  match tableWord nbits w with
  | some (.command, b :: _) => withCommand s b
  | some (.hslStream, bs) => withElement s 0 bs
  | some (.rgbStream, bs) => withElement s 1 bs
  | _ => s

end Sys2Proof.Machine
end

