-- ==== Sys2Proof/Machine/Invocation.lean ====
section
/-! DEFINITION. The spec's own notation for invocations and pseudo-elements (30_encoding.md R63, R64), as
host actions and bytes. -/

namespace Sys2Proof.Machine

/-- An invocation: operation code, content of `IN`, capacity (R63). -/
structure Invocation where
  op : BitVec 2
  input : List Byte
  cap : Nat
deriving DecidableEq, Repr

/-- An input view that holds exactly the given bytes. -/
def viewOf (bs : List Byte) : View := ⟨bs.length, Memory.writeBytes [] 0 bs⟩

/-- An invocation as the host's actions (R63, R154): the input view, then the three register writes
`IN_LEN`, `OUT_CAP`, `CMD`. -/
def invocationActions (v : Invocation) : List HostAction :=
  [.lendIn (viewOf v.input), .write .inLen v.input.length, .write .outCap v.cap, .write .cmd v.op.toNat]

/-- `hsl(h,l)` (R64). -/
def hslElement (h l : Byte) : List Byte := [h, l]

/-- `dark(h,m)` (R64). -/
def darkElement (h : Byte) (m : BitVec 7) : List Byte := encode (.pxDark h m)

/-- `light(h,m)` (R64). -/
def lightElement (h : Byte) (m : BitVec 7) : List Byte := encode (.pxLight h m)

/-- `p332(r,g,b)` (R64). -/
def p332Element (r g : BitVec 3) (b : BitVec 2) : List Byte := encode (.pxRgb332 r g b)

/-- `k * e` (R64). -/
def repeated (k : Nat) (e : List Byte) : List Byte := (List.replicate k e).flatten

end Sys2Proof.Machine
end

