-- ==== Sys2Proof/Safety.lean ====
section
/-! DEFINITION. What claims about the CLM speak of: the conditions a host must meet (70_reset_and_hazards.md
R153 to R155), the state an operation ends in, and the invariant of the machine. -/

namespace Sys2Proof.Machine

/-- The registers state the true sizes of the views, or less (R154 (4)). -/
structure State.Truthful (s : State) : Prop where
  inSize : s.inLen ≤ s.inView.size
  outSize : s.outCap ≤ s.outView.size

/-- The host may start an operation (R140, R28): tables ready, no operation running, arguments written. -/
structure State.CanStart (s : State) : Prop where
  ready : s.lutReady = true
  idle : s.busy = false
  inLenWritten : s.inLenWritten = true
  outCapWritten : s.outCapWritten = true

/-- A running operation has an element of the stream of place `p` left to run (R91, R102, R117). -/
structure State.AtElement (s : State) (p : Place) : Prop where
  ready : s.lutReady = true
  running : s.busy = true
  form : elementPlace s.op = some p
  left : s.pos < elementCount s.op s.inLen

/-- The byte at an offset of the input view. -/
def State.inByte (s : State) (a : Nat) : Byte := s.inView.mem.read a

/-- The byte at an offset of the output view. -/
def State.outByte (s : State) (a : Nat) : Byte := s.outView.mem.read a

/-- The output pixel at an offset, red first (R32). -/
def State.pixelAt (s : State) (a : Nat) : Rgb := ⟨s.outByte a, s.outByte (a + 1), s.outByte (a + 2)⟩

/-- The color of HSL element `i` of the input view (R31, R80). -/
def State.hslColor (s : State) (i : Nat) : Rgb := shade (entry s.hueLut (s.inByte (2 * i))) (s.inByte (2 * i + 1))

/-- The color of RGB332 element `i` of the input view (R101). -/
def State.rgbColor (s : State) (i : Nat) : Rgb := entry s.packLut (s.inByte i)

/-- The offset `a` lies in the region of segment `k` (R39). -/
def InSegment (t : SegTable) (k a : Nat) : Prop := segLo t k ≤ a ∧ a < segHi t k

/-- `t` is `s` with one element consumed: `POS` is one more and, of everything else, only bytes of `OUT`
may differ (R27). -/
def ConsumesElement (s t : State) : Prop :=
  t = { s with pos := s.pos + 1, outView := { s.outView with mem := t.outView.mem } }

/-- One pixel of a color is written at `3 * POS` and every other byte of `OUT` is as before (R38, R41). -/
structure WritesPixel (c : Rgb) (s t : State) : Prop where
  frame : ConsumesElement s t
  pixel : t.pixelAt (3 * s.pos) = c
  others : ∀ a, a < 3 * s.pos ∨ 3 * s.pos + 3 ≤ a → t.outByte a = s.outByte a

/-- The segment `POS` is filled with a color and every other byte of `OUT` is as before (R39, R41, R112). -/
structure FillsSegment (c : Rgb) (s t : State) : Prop where
  frame : ConsumesElement s t
  pixels : ∀ j, j < (segDesc s.hw.segTable s.pos).count.toNat →
    t.pixelAt (segLo s.hw.segTable s.pos + 3 * j) = c
  others : ∀ a, ¬ InSegment s.hw.segTable s.pos a → t.outByte a = s.outByte a

/-- The byte at offset `a` of a fill of one color that begins at `lo`: channel `(a - lo) mod 3` (R118). -/
def fillByte (c : Rgb) (lo a : Nat) : Byte :=
  if (a - lo) % 3 = 0 then c.r else if (a - lo) % 3 = 1 then c.g else c.b

/-- The state a completed operation leaves (R141): its code, its final position, its result, the contents
of `OUT`; everything else is as it was in `s`. -/
def afterOperation (s : State) (op : BitVec 2) (pos : Nat) (k : Result) (out : Memory) : State :=
  { s with
    op := op
    pos := pos
    result := k
    done := true
    busy := false
    outStart := []
    outView := { s.outView with mem := out } }

/-- Some steps of the machine in a row, stopping at the first fault or refusal. -/
def runSteps : Nat → State → Out
  | 0, s => .next s
  | k + 1, s => andThen (step s) (runSteps k)

/-- The invariant of the machine: canonical memories, lengths that fit their registers (R18, R19),
`LUT_READY` and the built tables (R22, R77), and what holds while an operation runs (R22, R91, R153). -/
structure State.Inv (s : State) : Prop where
  inMem : s.inView.wf = true
  outMem : s.outView.wf = true
  startMem : s.outStart.wf = true
  inLenFits : s.inLen < 2 ^ s.hw.addrW
  outCapFits : s.outCap < 2 ^ s.hw.addrW
  posFits : s.pos < 2 ^ s.hw.addrW
  ready : s.lutReady = (s.hueBuilt && s.packBuilt)
  hue : s.hueBuilt = true → s.hueLut = hueTable s.hw.wheel
  pack : s.packBuilt = true → s.packLut = packTable
  running : s.busy = true → s.lutReady = true ∧ s.done = false ∧ elementPlace s.op ≠ none ∧
    operationCheck s = none ∧ s.pos ≤ elementCount s.op s.inLen
  idle : s.busy = false → s.outStart = []

end Sys2Proof.Machine
end

