-- ==== Sys2Proof/Certificates/Slice0/Obligations.lean ====
section
/-! DEFINITION. The statements about the CLM, one `def Obligations.<Name> : Prop` each. -/

open Sys2Proof Sys2Proof.Machine

/-! ### Encoding -/

/-- Decode and encode agree on every instruction that has an encoding, whatever bytes follow (R50 to R57). -/
def Obligations.DecodeOfEncodeIsIdentity : Prop :=
  ∀ (i : Instr) (p : Place) (rest : List Byte), i.encodable = true → i.wellFormedAt p = true →
    decode p (encode i ++ rest) = .ok (i, rest)

/-- No bit of a stream element is dropped: a decoded element encodes back to the bytes it was read from
(R54, R57, R58). -/
def Obligations.EncodeOfDecodedElementIsIdentity : Prop :=
  ∀ (p : Place) (bs rest : List Byte) (i : Instr), p = .hslStream ∨ p = .rgbStream →
    decode p bs = .ok (i, rest) → encode i ++ rest = bs ∧ i.wellFormedAt p = true

/-- Every stream element decodes: two bytes of an HSL stream, one byte of an RGB332 stream (R58). -/
def Obligations.EveryStreamElementDecodes : Prop :=
  ∀ (h l : Byte) (rest : List Byte),
    (l.toNat < 128 → decode .hslStream (h :: l :: rest) = .ok (.pxDark h (BitVec.ofNat 7 l.toNat), rest)) ∧
    (128 ≤ l.toNat →
      decode .hslStream (h :: l :: rest) = .ok (.pxLight h (BitVec.ofNat 7 (l.toNat - 128)), rest)) ∧
    decode .rgbStream (h :: rest) = .ok (.pxRgb332 (BitVec.ofNat 3 (h.toNat / 32))
      (BitVec.ofNat 3 (h.toNat / 4 % 8)) (BitVec.ofNat 2 (h.toNat % 4)), rest)

/-- Only bits 1:0 of a command byte matter, and code 3 is no operation (R51, R52, R58). -/
def Obligations.CommandDecodesByLowBits : Prop :=
  ∀ (b : Byte) (rest : List Byte),
    (b.toNat % 4 = 0 → decode .command (b :: rest) = .ok (.hsldec, rest)) ∧
    (b.toNat % 4 = 1 → decode .command (b :: rest) = .ok (.rgbdec, rest)) ∧
    (b.toNat % 4 = 2 → decode .command (b :: rest) = .ok (.segmap, rest)) ∧
    (b.toNat % 4 = 3 → decode .command (b :: rest) = .error .reservedOp)

/-- A few words written out from the encoding tables decode to what they stand for (R52, R54, R57). -/
def Obligations.WrittenWordsDecode : Prop :=
  decode .command [0b00000000] = .ok (.hsldec, []) ∧
  decode .command [0b11111101] = .ok (.rgbdec, []) ∧
  decode .command [0b00000010] = .ok (.segmap, []) ∧
  decode .hslStream [0b01010110, 0b01000000] = .ok (.pxDark 86 64, []) ∧
  decode .hslStream [0b10101011, 0b11000001] = .ok (.pxLight 171 65, []) ∧
  decode .rgbStream [0b10110110] = .ok (.pxRgb332 5 5 2, [])

/-! ### Tables -/

/-- Hue scaling: the formulas and the ranges of R71. -/
def Obligations.HueScalingFormulasAndRanges : Prop :=
  (∀ h : Byte,
    hueDegree h = h.toNat * 360 / 256 ∧ hueRegion h = hueDegree h / 60 ∧
    hueRem h = hueDegree h % 60 * 255 / 60 ∧ hueDegree h ≤ 358 ∧ hueRegion h ≤ 5 ∧
    hueDegree h % 60 ≤ 59 ∧ hueRem h ≤ 250 ∧ 5 ≤ 255 - hueRem h) ∧
  hueDegree 0 = 0 ∧ hueDegree 255 = 358 ∧ 59 * 255 / 60 = 250 ∧
  (∀ h h' : Byte, h.toNat < h'.toNat → hueDegree h < hueDegree h')

/-- Under every wheel pattern each entry has its full channel at 255, its zero channel at 0 and its third
channel at `rem` or `255 - rem` (R72: what "any replacement pattern must keep"). -/
def Obligations.WheelHasFullZeroAndThirdChannel : Prop :=
  ∀ (w : WheelPattern) (h : Byte) (p : RegionPattern), p = w[hueRegion h]'(hueRegion_lt h) →
    (wheelColor w h).channel p.full = 255 ∧ (wheelColor w h).channel p.zero = 0 ∧
    ∀ c, c ≠ p.full → c ≠ p.zero →
      ((wheelColor w h).channel c).toNat = if p.falling then 255 - hueRem h else hueRem h

/-- The six rows of R72 under the standard wheel. The standard wheel is the spec's default from general
knowledge: the model's PRESUMED choice, log 7. -/
def Obligations.StandardWheelRows : Prop :=
  ∀ h : Byte, wheelColor Config.standardWheel h =
    (match hueRegion h with
     | 0 => ⟨255, BitVec.ofNat 8 (hueRem h), 0⟩
     | 1 => ⟨BitVec.ofNat 8 (255 - hueRem h), 255, 0⟩
     | 2 => ⟨0, 255, BitVec.ofNat 8 (hueRem h)⟩
     | 3 => ⟨0, BitVec.ofNat 8 (255 - hueRem h), 255⟩
     | 4 => ⟨BitVec.ofNat 8 (hueRem h), 0, 255⟩
     | _ => ⟨255, 0, BitVec.ofNat 8 (255 - hueRem h)⟩)

/-- Bit replication: the closed formulas, their value tables, and that `+` and bitwise or agree (R75). -/
def Obligations.BitReplicationValues : Prop :=
  (∀ v, v < 8 → (rep3 v).toNat = v * 32 + v * 4 + v / 2 ∧ (rep3 v).toNat = (v <<< 5 ||| v <<< 2 ||| v >>> 1)) ∧
  (∀ v, v < 4 → (rep2 v).toNat = v * 64 + v * 16 + v * 4 + v ∧ (rep2 v).toNat = v * 85 ∧
    (rep2 v).toNat = (v <<< 6 ||| v <<< 4 ||| v <<< 2 ||| v)) ∧
  (List.range 8).map rep3 = [0, 36, 73, 109, 146, 182, 219, 255] ∧
  (List.range 4).map rep2 = [0, 85, 170, 255]

/-- Properties of `PACK_LUT`: the three entries the source gives, the values its channels take, and that it
is injective (R76). -/
def Obligations.PackTableProperties : Prop :=
  entry packTable 0x00 = ⟨0, 0, 0⟩ ∧ entry packTable 0xFF = ⟨255, 255, 255⟩ ∧
  entry packTable 0x20 = ⟨36, 0, 0⟩ ∧
  (∀ p : Byte, (entry packTable p).r ∈ (List.range 8).map rep3 ∧
    (entry packTable p).g ∈ (List.range 8).map rep3 ∧ (entry packTable p).b ∈ (List.range 4).map rep2) ∧
  (∀ p q : Byte, entry packTable p = entry packTable q → p = q)

/-! ### The lightness scaler -/

/-- `Shade` decides the form by `l < 128` and computes each channel from that channel alone (R80). -/
def Obligations.ShadeChannelsIndependent : Prop :=
  (∀ (base : Rgb) (l : Byte) (c : Channel),
    (shade base l).channel c =
      if l.toNat < 128 then darkChannel (base.channel c) l else lightChannel (base.channel c) l) ∧
  shade ⟨255, 0, 0⟩ 64 = ⟨127, 0, 0⟩

/-- `Dark(c, l)`: the formula, exact, with its range and corner cases (R81). -/
def Obligations.DarkChannelFormula : Prop :=
  (∀ c l : Byte, l.toNat < 128 →
    (darkChannel c l).toNat = c.toNat * (2 * l.toNat) / 256 ∧ 2 * l.toNat ≤ 254 ∧
    c.toNat * (2 * l.toNat) ≤ 64770 ∧ (darkChannel c l).toNat ≤ 253) ∧
  (∀ c : Byte, darkChannel c 0 = 0 ∧
    (darkChannel c 127).toNat =
      (if 129 ≤ c.toNat then c.toNat - 2 else if 1 ≤ c.toNat then c.toNat - 1 else 0)) ∧
  (∀ l : Byte, l.toNat < 128 → darkChannel 0 l = 0) ∧
  darkChannel 255 127 = 253 ∧ darkChannel 250 100 = 195

/-- `Light(c, l)`: the formula, exact, with its range and corner cases (R82). -/
def Obligations.LightChannelFormula : Prop :=
  (∀ c l : Byte, 128 ≤ l.toNat →
    (lightChannel c l).toNat = c.toNat + (255 - c.toNat) * ((l.toNat - 128) * 2) / 256 ∧
    (l.toNat - 128) * 2 ≤ 254 ∧ c.toNat ≤ (lightChannel c l).toNat ∧
    (255 - c.toNat) * ((l.toNat - 128) * 2) / 256 ≤ (255 - c.toNat) * 254 / 256 ∧
    (255 - c.toNat) * 254 / 256 ≤ 255 - c.toNat) ∧
  (∀ c : Byte, lightChannel c 128 = c ∧
    (lightChannel c 255).toNat =
      (if c.toNat ≤ 126 then 253 else if c.toNat ≤ 254 then 254 else 255)) ∧
  (∀ l : Byte, 128 ≤ l.toNat → lightChannel 255 l = 255) ∧ lightChannel 5 200 = 145

/-- For a fixed channel value the result does not fall as lightness rises, and it steps at 127/128 to the
channel value itself by 0, 1 or 2, then rises to the value of the light form at 255 (R85). -/
def Obligations.ShadeRisesWithLightness : Prop :=
  ∀ c : Byte,
    (∀ l l' : Byte, l.toNat ≤ l'.toNat → (shade ⟨c, c, c⟩ l).r.toNat ≤ (shade ⟨c, c, c⟩ l').r.toNat) ∧
    (shade ⟨c, c, c⟩ 127).r.toNat = c.toNat * 254 / 256 ∧ (shade ⟨c, c, c⟩ 128).r = c ∧
    (shade ⟨c, c, c⟩ 128).r.toNat - (shade ⟨c, c, c⟩ 127).r.toNat =
      (if c.toNat = 0 then 0 else if c.toNat ≤ 128 then 1 else 2) ∧
    (shade ⟨c, c, c⟩ 255).r.toNat = c.toNat + (255 - c.toNat) * 254 / 256

/-- The rounding error: never above the exact value over 255, and less than 2 units below it (R84). -/
def Obligations.ShadeFallsShortByLessThanTwo : Prop :=
  ∀ c l : Byte,
    (l.toNat < 128 →
      255 * (darkChannel c l).toNat ≤ c.toNat * (2 * l.toNat) ∧
      c.toNat * (2 * l.toNat) < 255 * ((darkChannel c l).toNat + 2)) ∧
    (128 ≤ l.toNat →
      255 * ((lightChannel c l).toNat - c.toNat) ≤ (255 - c.toNat) * (2 * (l.toNat - 128)) ∧
      (255 - c.toNat) * (2 * (l.toNat - 128)) < 255 * ((lightChannel c l).toNat - c.toNat + 2))

/-- End points over all hues and all wheel patterns: lightness 0 is black; lightness 255 is never white, and
gives 253, 254 or 255 by channel (R86). -/
def Obligations.LightnessEndPoints : Prop :=
  ∀ (w : WheelPattern) (h : Byte),
    shade (entry (hueTable w) h) 0 = ⟨0, 0, 0⟩ ∧ shade (entry (hueTable w) h) 255 ≠ ⟨255, 255, 255⟩ ∧
    ∀ c : Channel, ((shade (entry (hueTable w) h) 255).channel c).toNat =
      (if ((entry (hueTable w) h).channel c).toNat ≤ 126 then 253
       else if ((entry (hueTable w) h).channel c).toNat ≤ 254 then 254 else 255)

/-! ### The table builds -/

/-- `BUILD.HUE` stores `Wheel(h)` in every entry `h` and cannot fault; `LUT_READY` rises if the other build
is complete; nothing else changes (R70, R77). -/
def Obligations.BuildHueFillsTable : Prop :=
  ∀ s : State, s.hueBuilt = false →
    ∃ t, exec .buildHue s = .next t ∧ (∀ h, entry t.hueLut h = wheelColor s.hw.wheel h) ∧
      t = { s with hueLut := t.hueLut, hueBuilt := true, lutReady := s.packBuilt }

/-- `BUILD.PACK` stores the expansion of every packed byte and cannot fault; `LUT_READY` rises if the other
build is complete; nothing else changes (R74, R77). -/
def Obligations.BuildPackFillsTable : Prop :=
  ∀ s : State, s.packBuilt = false →
    ∃ t, exec .buildPack s = .next t ∧
      (∀ p : Byte, entry t.packLut p =
        ⟨rep3 (p.toNat / 32), rep3 (p.toNat / 4 % 8), rep2 (p.toNat % 4)⟩) ∧
      entry t.packLut 0x20 = ⟨36, 0, 0⟩ ∧
      t = { s with packLut := t.packLut, packBuilt := true, lutReady := s.hueBuilt }

/-- A table once built is kept and not rebuilt (R13, R48): the model's reading of a second build, log 8. -/
def Obligations.SecondBuildChangesNothing : Prop :=
  (∀ s : State, s.hueBuilt = true → exec .buildHue s = .next s) ∧
  (∀ s : State, s.packBuilt = true → exec .buildPack s = .next s)

/-- Under `LUT_INIT_MODE = build` two steps after reset bring the machine to the state that
`LUT_INIT_MODE = rom` has at reset: the same tables, `LUT_READY = 1` (R150; the number of steps is the
model's, log 8). -/
def Obligations.BuildPhaseReachesRomState : Prop :=
  ∀ hw : Params, hw.lutInit = .build →
    runSteps 2 (State.resetOf hw) =
      .next { State.resetOf { hw with lutInit := .rom } with hw := hw }

/-! ### Stream elements -/

/-- `PX.DARK` and `PX.LIGHT` under `HSLDEC`: the shaded base color is written as one pixel at `3 * POS`,
`POS` advances, nothing else changes (R81, R82, R91, R41). -/
def Obligations.PxHslWritesPixel : Prop :=
  ∀ (s : State) (hue : Byte) (mag : BitVec 7), s.outView.mem.wf = true → s.AtElement .hslStream → s.op = 0 →
    3 * s.pos + 3 ≤ s.outCap → 3 * s.pos + 3 ≤ s.outView.size →
    (∃ t, exec (.pxDark hue mag) s = .next t ∧
      WritesPixel (shade (entry s.hueLut hue) (BitVec.ofNat 8 mag.toNat)) s t) ∧
    (∃ t, exec (.pxLight hue mag) s = .next t ∧
      WritesPixel (shade (entry s.hueLut hue) (BitVec.ofNat 8 (128 + mag.toNat))) s t)

/-- `PX.DARK` and `PX.LIGHT` under `SEGMAP`: the shaded base color fills the segment `POS`, `POS` advances,
nothing else changes (R81, R82, R112, R117, R41). -/
def Obligations.PxHslFillsSegment : Prop :=
  ∀ (s : State) (hue : Byte) (mag : BitVec 7), s.outView.mem.wf = true → s.AtElement .hslStream → s.op = 2 →
    segHi s.hw.segTable s.pos ≤ s.outCap → segHi s.hw.segTable s.pos ≤ s.outView.size →
    (∃ t, exec (.pxDark hue mag) s = .next t ∧
      FillsSegment (shade (entry s.hueLut hue) (BitVec.ofNat 8 mag.toNat)) s t) ∧
    (∃ t, exec (.pxLight hue mag) s = .next t ∧
      FillsSegment (shade (entry s.hueLut hue) (BitVec.ofNat 8 (128 + mag.toNat))) s t)

/-- `PX.RGB332`: the `PACK_LUT` entry of the packed byte is written as one pixel at `3 * POS`, `POS`
advances, nothing else changes (R101, R102, R41). -/
def Obligations.PxRgb332WritesPixel : Prop :=
  ∀ (s : State) (r3 g3 : BitVec 3) (b2 : BitVec 2), s.outView.mem.wf = true → s.AtElement .rgbStream →
    3 * s.pos + 3 ≤ s.outCap → 3 * s.pos + 3 ≤ s.outView.size →
    ∃ t, exec (.pxRgb332 r3 g3 b2) s = .next t ∧
      WritesPixel (entry s.packLut (BitVec.ofNat 8 (r3.toNat * 32 + g3.toNat * 4 + b2.toNat))) s t

/-- An element form outside a stream of its format is refused by name: the model's reading, log 14. -/
def Obligations.ElementOutsideStreamRefused : Prop :=
  ∀ (s : State) (i : Instr), i.place = .hslStream ∨ i.place = .rgbStream → s.lutReady = true →
    (s.busy = false → exec i s = .refused .noRunningOperation) ∧
    (s.busy = true → elementPlace s.op ≠ some i.place → exec i s = .refused .wrongElementForm) ∧
    (s.busy = true → elementPlace s.op = some i.place → elementCount s.op s.inLen ≤ s.pos →
      exec i s = .refused .streamExhausted)

/-- A pixel of the decoders, or a segment of `SEGMAP` that is not empty, that would be written outside the
view really lent or outside `OUT_CAP` faults and is not wrapped, clipped or dropped (R9, R115, R154 (4)): the
model's stop, log 11. -/
def Obligations.PixelOutsideViewFaults : Prop :=
  (∀ (s : State) (i : Instr), i.place = .hslStream ∨ i.place = .rgbStream → s.AtElement i.place → s.op ≠ 2 →
    s.outCap < 3 * s.pos + 3 ∨ s.outView.size < 3 * s.pos + 3 → exec i s = .fault .writeOutsideView) ∧
  (∀ (s : State) (i : Instr), i.place = .hslStream → s.AtElement .hslStream → s.op = 2 →
    (segDesc s.hw.segTable s.pos).count ≠ 0 →
    s.outCap < segHi s.hw.segTable s.pos ∨ s.outView.size < segHi s.hw.segTable s.pos →
    exec i s = .fault .writeOutsideView)

/-! ### Operations -/

/-- `HSLDEC` with an even length and room for every pixel, as one transition: pixel `i` is the shaded color
of pair `i`, the bytes from `3n` on are as before,
`IN` is unchanged, `RESULT = OK`, and nothing but `OP`, `POS`, `RESULT` and `DONE` changes beside (R92). -/
def Obligations.HsldecDecodesEveryPair : Prop :=
  ∀ s : State, s.outView.mem.wf = true → s.CanStart → s.Truthful → s.hw.level = .invocation →
    s.inLen % 2 = 0 → 3 * (s.inLen / 2) ≤ s.outCap →
    ∃ t, exec .hsldec s = .next t ∧ t = afterOperation s 0 t.pos .ok t.outView.mem ∧
      (∀ i, i < s.inLen / 2 → t.pixelAt (3 * i) = s.hslColor i) ∧
      (∀ a, 3 * (s.inLen / 2) ≤ a → t.outByte a = s.outByte a)

/-- `RGBDEC` with room for every pixel, as one transition: pixel `i` is the `PACK_LUT` entry of byte `i`,
the bytes from `3n` on are as before, `IN` is unchanged, `RESULT = OK`, nothing but `OP`, `POS`, `RESULT`
and `DONE` changes beside, and the stream can be recovered from the output (R103). -/
def Obligations.RgbdecDecodesEveryByte : Prop :=
  ∀ s : State, s.outView.mem.wf = true → s.CanStart → s.Truthful → s.hw.level = .invocation →
    3 * s.inLen ≤ s.outCap →
    ∃ t, exec .rgbdec s = .next t ∧ t = afterOperation s 1 t.pos .ok t.outView.mem ∧
      (∀ i, i < s.inLen → t.pixelAt (3 * i) = s.rgbColor i) ∧
      (∀ a, 3 * s.inLen ≤ a → t.outByte a = s.outByte a) ∧
      (s.packLut = packTable → ∀ (i : Nat) (b : Byte), i < s.inLen →
        t.pixelAt (3 * i) = entry packTable b → b = s.inByte i)

/-- `SEGMAP` with an even length and every segment inside `OUT_CAP`, as one transition: a byte in no segment
of the stream is as before, any other holds the color of the last segment that covers it, `IN` is unchanged,
`RESULT = OK`, and nothing but `OP`, `POS`, `RESULT` and `DONE` changes beside (R118). -/
def Obligations.SegmapPaintsLastSegment : Prop :=
  ∀ s : State, s.outView.mem.wf = true → s.CanStart → s.Truthful → s.hw.level = .invocation →
    s.inLen % 2 = 0 → (∀ k, k < s.inLen / 2 → segHi s.hw.segTable k ≤ s.outCap) →
    ∃ t, exec .segmap s = .next t ∧ t = afterOperation s 2 t.pos .ok t.outView.mem ∧
      (∀ a, (∀ k, k < s.inLen / 2 → ¬ InSegment s.hw.segTable k a) → t.outByte a = s.outByte a) ∧
      (∀ a k, k < s.inLen / 2 → InSegment s.hw.segTable k a →
        (∀ k', k < k' → k' < s.inLen / 2 → ¬ InSegment s.hw.segTable k' a) →
        t.outByte a = fillByte (s.hslColor k) (segLo s.hw.segTable k) a)

/-- At the element level an operation whose checks pass is started and left running (R91, R117, R140;
log 1). -/
def Obligations.ElementLevelStartsOperation : Prop :=
  ∀ s : State, s.CanStart → s.hw.level = .element →
    (s.inLen % 2 = 0 → 3 * (s.inLen / 2) ≤ s.outCap → exec .hsldec s = .next (started 0 s)) ∧
    (3 * s.inLen ≤ s.outCap → exec .rgbdec s = .next (started 1 s)) ∧
    (s.inLen % 2 = 0 → (∀ k, k < s.inLen / 2 → segHi s.hw.segTable k ≤ s.outCap) →
      exec .segmap s = .next (started 2 s))

/-- The fault matrix, with the entry of R134 (`POS` 0, nothing written), in the order of the tests, at both
levels; and the kinds an operation or a build never reports (R138, R133). -/
def Obligations.FaultMatrix : Prop :=
  (∀ s : State, s.CanStart →
    (s.inLen % 2 = 1 → exec .hsldec s = .next (afterOperation s 0 0 .invalidLength s.outView.mem)) ∧
    (s.inLen % 2 = 0 → s.outCap < 3 * (s.inLen / 2) →
      exec .hsldec s = .next (afterOperation s 0 0 .bufferTooSmall s.outView.mem)) ∧
    (s.outCap < 3 * s.inLen → exec .rgbdec s = .next (afterOperation s 1 0 .bufferTooSmall s.outView.mem)) ∧
    (s.inLen % 2 = 1 → exec .segmap s = .next (afterOperation s 2 0 .invalidLength s.outView.mem)) ∧
    (s.inLen % 2 = 0 → (∃ k, k < s.inLen / 2 ∧ s.outCap < segHi s.hw.segTable k) →
      exec .segmap s = .next (afterOperation s 2 0 .outOfBounds s.outView.mem))) ∧
  (∀ s t : State,
    (exec .hsldec s = .next t → t.done = true → t.result ≠ .outOfBounds) ∧
    (exec .rgbdec s = .next t → t.done = true → t.result = .ok ∨ t.result = .bufferTooSmall) ∧
    (exec .segmap s = .next t → t.done = true → t.result ≠ .bufferTooSmall) ∧
    (exec .buildHue s = .next t → t.result = s.result) ∧
    (exec .buildPack s = .next t → t.result = s.result))

/-- A command is refused while the tables are not ready, while an operation runs, and when an argument has
not been written since reset (R28, R140, R153, R155). -/
def Obligations.CommandRefusedUnlessItCanStart : Prop :=
  ∀ (s : State) (i : Instr), i.place = .command →
    (s.lutReady = false → exec i s = .refused .lutNotReady) ∧
    (s.lutReady = true → s.busy = true → exec i s = .refused .commandWhileBusy) ∧
    (s.lutReady = true → s.busy = false → (s.inLenWritten && s.outCapWritten) = false →
      exec i s = .refused .unwrittenArgument)

/-- A completed operation that reports a fault kind has written nothing and stands at position 0 (R134). -/
def Obligations.FaultKindLeavesOutputUntouched : Prop :=
  ∀ (s t : State) (i : Instr), i.place = .command → exec i s = .next t → t.done = true → t.result ≠ .ok →
    t.outView = s.outView ∧ t.pos = 0 ∧ t.inView = s.inView ∧ t.busy = false

/-- An operation run again gives the same state: the same `RESULT` and the same bytes (R36). -/
def Obligations.OperationIsIdempotent : Prop :=
  ∀ (s t : State) (i : Instr), i.place = .command → s.hw.level = .invocation → s.Inv → s.Truthful →
    exec i s = .next t → exec i t = .next t

/-- The prior content of `OUT` decides nothing: run from two contents, an operation leaves each byte either
equal in both or as it was in both, and everything else the same (R24). -/
def Obligations.OperationIgnoresOldOutput : Prop :=
  ∀ (s t t' : State) (m : Memory) (i : Instr), i.place = .command → s.hw.level = .invocation →
    s.Truthful → s.outView.mem.wf = true → m.wf = true → exec i s = .next t → exec i (setOut m s) = .next t' →
    t' = setOut t'.outView.mem t ∧
    ∀ a, t.outByte a = t'.outByte a ∨ t.outByte a = s.outByte a ∧ t'.outByte a = m.read a

/-! ### Segment geometry -/

/-- A segment lies inside its digit's region; segments of different digits are disjoint; segment `k + 32` has
the same length as segment `k`, 564 bytes further (R40). -/
def Obligations.SegmentsStayInTheirDigits : Prop :=
  ∀ (t : SegTable) (k k' : Nat),
    k / 32 * 564 ≤ segLo t k ∧ segHi t k ≤ (k / 32 + 1) * 564 ∧
    segLo t (k + 32) = segLo t k + 564 ∧ segHi t (k + 32) = segHi t k + 564 ∧
    (k / 32 ≠ k' / 32 → ∀ a, ¬ (InSegment t k a ∧ InSegment t k' a))

/-- A sufficient capacity: 564 bytes for each digit the stream touches, and `SEGMAP` reports no
`OutOfBounds` (R116). -/
def Obligations.WholeDigitsSuffice : Prop :=
  ∀ s : State, 564 * ((s.inLen / 2 + 31) / 32) ≤ s.outCap →
    (∀ k, k < s.inLen / 2 → segHi s.hw.segTable k ≤ s.outCap) ∧
    ∀ t, exec .segmap s = .next t → t.done = true → t.result ≠ .outOfBounds

/-! ### What no instruction does -/

/-- No instruction writes the parameters, the argument registers, `IN`, or the host's side (R14, R18, R23,
R27). -/
def Obligations.InstructionsSpareArgumentsAndInput : Prop :=
  ∀ (i : Instr) (s t : State), exec i s = .next t →
    t.hw = s.hw ∧ t.inLen = s.inLen ∧ t.outCap = s.outCap ∧ t.inLenWritten = s.inLenWritten ∧
    t.outCapWritten = s.outCapWritten ∧ t.inView = s.inView ∧ t.host = s.host ∧
    t.readData = s.readData ∧ t.draws = s.draws

/-- Only `BUILD.HUE` writes `HUE_LUT` and only `BUILD.PACK` writes `PACK_LUT` (R11, R12, R27). -/
def Obligations.OnlyBuildsWriteTables : Prop :=
  ∀ (i : Instr) (s t : State), exec i s = .next t →
    (i ≠ .buildHue → t.hueLut = s.hueLut ∧ t.hueBuilt = s.hueBuilt) ∧
    (i ≠ .buildPack → t.packLut = s.packLut ∧ t.packBuilt = s.packBuilt) ∧
    (i.place ≠ .builder → t.lutReady = s.lutReady)

/-- No instruction writes a byte of `OUT` at or beyond `OUT_CAP`, or changes the size of the view (R47). -/
def Obligations.WritesStayBelowCapacity : Prop :=
  ∀ (i : Instr) (s t : State), s.outView.mem.wf = true → exec i s = .next t →
    t.outView.size = s.outView.size ∧ ∀ a, s.outCap ≤ a → t.outByte a = s.outByte a

/-! ### The machine -/

/-- A write of `CMD` runs the decoded operation, with the action consumed (R51, R140); a byte with bits 1:0
equal to 3 is refused (R58). -/
def Obligations.StepRunsWrittenCommand : Prop :=
  ∀ (s : State) (v : Nat) (rest : List HostAction), s.busy = false → s.host = .write .cmd v :: rest → v < 256 →
    (∀ i : Instr, decode .command [BitVec.ofNat 8 v] = .ok (i, []) → step s = exec i { s with host := rest }) ∧
    (v % 4 = 3 → step s = .refused (.undecodable .reservedOp))

/-- While an operation has an element left, the step runs the element decoded at `POS`; a reset not yet due
comes one step nearer, any other host action is held (R91, R102, R117, R156; the host's list is log 2). -/
def Obligations.StepRunsFetchedElement : Prop :=
  ∀ (s : State) (p : Place) (bs rest : List Byte) (i : Instr), s.busy = true →
    s.pos < elementCount s.op s.inLen → elementPlace s.op = some p → elementBytes s = some bs →
    decode p bs = .ok (i, rest) →
    ((∀ k tail, s.host ≠ .reset k :: tail) → step s = exec i s) ∧
    (∀ k tail, s.host = .reset (k + 1) :: tail → step s = exec i { s with host := .reset k :: tail })

/-- In the building phase, with no host action, the step runs the next build (R150; `BUILD.HUE` first is the
model's choice, log 8). -/
def Obligations.StepRunsNextBuild : Prop :=
  ∀ s : State, s.busy = false → s.lutReady = false → s.host = [] →
    (s.hueBuilt = false → step s = exec .buildHue s) ∧ (s.hueBuilt = true → step s = exec .buildPack s)

/-- When the stream is consumed the step ends the operation with `OK`, a reset not yet due coming one step
nearer (log 2); when nothing runs, the tables are
ready and the host does nothing, the machine is idle (R91, R141, R151; logs 1, 19). -/
def Obligations.StepEndsOperationOrIdles : Prop :=
  (∀ s : State, s.busy = true → elementCount s.op s.inLen ≤ s.pos → (∀ k tail, s.host ≠ .reset k :: tail) →
    step s = .next { s with result := .ok, busy := false, done := true, outStart := [] }) ∧
  (∀ (s : State) (k : Nat) (tail : List HostAction), s.busy = true → elementCount s.op s.inLen ≤ s.pos →
    s.host = .reset (k + 1) :: tail →
    step s = .next
      { s with host := .reset k :: tail, result := .ok, busy := false, done := true, outStart := [] }) ∧
  (∀ s : State, s.busy = false → s.lutReady = true → s.host = [] → step s = .next s)

/-- What the host's register writes and reads do: the argument registers take the value, `STATUS` ignores
writes and reads as its packed bits, a read of `CMD` returns some byte (R21; the host's list is log 2, the
draw counter log 13). In the ready phase this is R21's; that it is the same in the building phase is the
model's reading, log 20. -/
def Obligations.RegisterAccess : Prop :=
  ∀ (s : State) (v : Nat) (rest : List HostAction), s.busy = false →
    (s.host = .write .inLen v :: rest → v < 2 ^ s.hw.addrW →
      step s = .next { s with host := rest, inLen := v, inLenWritten := true }) ∧
    (s.host = .write .outCap v :: rest → v < 2 ^ s.hw.addrW →
      step s = .next { s with host := rest, outCap := v, outCapWritten := true }) ∧
    (s.host = .write .status v :: rest → v < 256 → step s = .next { s with host := rest }) ∧
    (s.host = .read .inLen :: rest → step s = .next { s with host := rest, readData := s.inLen }) ∧
    (s.host = .read .outCap :: rest → step s = .next { s with host := rest, readData := s.outCap }) ∧
    (s.host = .read .status :: rest →
      step s = .next { s with
        host := rest
        readData := resultCode s.result + s.done.toNat * 4 + s.lutReady.toNat * 16 }) ∧
    (s.host = .read .cmd :: rest → ∃ b : Byte,
      step s = .next { s with host := rest, readData := b.toNat, draws := s.draws + 1 })

/-- An invocation written as the host's actions (the input view, `IN_LEN`, `OUT_CAP`, `CMD`) runs its
operation in four steps on those arguments (R63, R154; one step for each action is log 2, and that the arguments may be written in the building phase
too, where the operation is then refused, is log 20). -/
def Obligations.InvocationRunsItsOperation : Prop :=
  ∀ (s : State) (v : Invocation) (i : Instr), s.busy = false → s.host = invocationActions v →
    v.input.length < 2 ^ s.hw.addrW → v.cap < 2 ^ s.hw.addrW →
    decode .command [BitVec.ofNat 8 v.op.toNat] = .ok (i, []) →
    runSteps 4 s = exec i { s with
      inView := viewOf v.input
      inLen := v.input.length
      inLenWritten := true
      outCap := v.cap
      outCapWritten := true
      host := [] }

/-- Reset with no operation running: results, flags and position at their reset values, the tables as
`LUT_INIT_MODE` says, the views left as they are (R28, R150, R151). The values of `OP`, `IN_LEN` and
`OUT_CAP` are the model's (log 3) and are not stated. -/
def Obligations.ResetLeavesViewsAndClearsStatus : Prop :=
  ∀ (s : State) (rest : List HostAction), s.busy = false → s.host = .reset 0 :: rest →
    ∃ t, step s = .next t ∧ t.result = .ok ∧ t.done = false ∧ t.busy = false ∧ t.pos = 0 ∧
      t.inLenWritten = false ∧ t.outCapWritten = false ∧ t.hw = s.hw ∧ t.host = rest ∧
      t.inView = s.inView ∧ t.outView = s.outView ∧
      (s.hw.lutInit = .rom → t.lutReady = true ∧
        (∀ h, entry t.hueLut h = wheelColor s.hw.wheel h) ∧ (∀ p, entry t.packLut p = packColor p)) ∧
      (s.hw.lutInit = .build → t.lutReady = false)

/-- Reset during an operation: the operation is abandoned; results, flags, position and tables are as after any
reset (R28, R150); a byte of `OUT` the operation could not have written is as before, any other holds its
value from before the operation, the one that stood there, or the one the completed operation would have left
(R152; log 12). -/
def Obligations.ResetAbandonsOperation : Prop :=
  ∀ (s : State) (rest : List HostAction), s.outView.mem.wf = true → s.busy = true →
    s.host = .reset 0 :: rest →
    ∃ t, step s = .next t ∧ t.busy = false ∧ t.done = false ∧ t.result = .ok ∧ t.pos = 0 ∧
      t.inLenWritten = false ∧ t.outCapWritten = false ∧ t.hw = s.hw ∧ t.host = rest ∧
      (s.hw.lutInit = .rom → t.lutReady = true ∧
        (∀ h, entry t.hueLut h = wheelColor s.hw.wheel h) ∧ (∀ p, entry t.packLut p = packColor p)) ∧
      (s.hw.lutInit = .build → t.lutReady = false) ∧
      t.inView = s.inView ∧ t.outView.size = s.outView.size ∧
      (∀ a, (s.op ≠ 2 → 3 * elementCount s.op s.inLen ≤ a) →
        (s.op = 2 → ∀ k, k < elementCount s.op s.inLen → ¬ InSegment s.hw.segTable k a) →
        t.outByte a = s.outByte a) ∧
      (∀ a, t.outByte a = s.outStart.read a ∨ t.outByte a = s.outByte a ∨
        t.outByte a = (finalOut { s with host := rest }).read a)

/-- No step changes the parameters, `SEG_TABLE` among them (R14, R6). -/
def Obligations.StepKeepsParameters : Prop :=
  ∀ s t : State, step s = .next t → t.hw = s.hw

/-- No step changes a table entry while `LUT_READY` stays 1 (R13). -/
def Obligations.TablesNeverChangeOnceReady : Prop :=
  ∀ s t : State, s.Inv → s.lutReady = true → step s = .next t → t.lutReady = true →
    t.hueLut = s.hueLut ∧ t.packLut = s.packLut

/-- The invariant holds after reset, under all parameters. -/
def Obligations.ResetMeetsInvariant : Prop :=
  (∀ hw : Params, (State.resetOf hw).Inv) ∧ State.reset.Inv

/-- Every step keeps the invariant: canonical memories, lengths that fit, tables right once built, and the
conditions a running operation was checked for. -/
def Obligations.StepKeepsInvariant : Prop :=
  ∀ s t : State, s.Inv → step s = .next t → t.Inv

/-- With the invariant and views of the stated sizes no step faults: no access outside a view (R47; the
model's fault is log 11). -/
def Obligations.TruthfulStepNeverFaults : Prop :=
  ∀ (s : State) (f : Fault), s.Inv → s.Truthful → step s ≠ .fault f

/-- A running operation ends: from position `POS` it takes the elements that are left and one step more
(R141; the number of steps is the model's, log 1, and so is `POS` after the end, log 4). -/
def Obligations.RunningOperationEnds : Prop :=
  ∀ s : State, s.Inv → s.Truthful → s.busy = true → s.host = [] →
    ∃ t, runSteps (elementCount s.op s.inLen - s.pos + 1) s = .next t ∧ t.busy = false ∧
      t.done = true ∧ t.result = .ok ∧ t.pos = elementCount s.op s.inLen

/-- The two levels agree: a command run element by element ends, within `IN_LEN + 2` steps, in the very
state that the one transition of the invocation level gives (R5, R91, R102, R117; the number of steps is
the model's, log 1). -/
def Obligations.ElementLevelAgreesWithInvocationLevel : Prop :=
  ∀ (s : State) (v : Nat), s.Inv → s.Truthful → s.CanStart → v < 256 → v % 4 ≠ 3 →
    ∃ t, runSteps 1
        { s with hw := { s.hw with level := .invocation }, host := [.write .cmd v] } = .next t ∧
      ∀ k, s.inLen + 2 ≤ k →
        runSteps k
          { s with hw := { s.hw with level := .element }, host := [.write .cmd v] } =
          .next { t with hw := { t.hw with level := .element } }

/-! ### The views, the waiting host and the reset to come -/

/-- A running step whose element does not lie inside the input view really lent faults, whatever the host
will do but a due reset (R154 (4), R159): the model's stop, log 11. -/
def Obligations.ElementOutsideInputViewFaults : Prop :=
  ∀ s : State, s.busy = true → elementPlace s.op ≠ none → s.pos < elementCount s.op s.inLen →
    s.inView.size < elementLength s.op * s.pos + elementLength s.op → (∀ tail, s.host ≠ .reset 0 :: tail) →
    step s = .fault .readOutsideView

/-- What the host does with the views while no operation runs (R27): it lends a view, stores one byte of a
view (read back there, every other byte as before), or loads one byte. The host's list is log 2, the canonical
views log 9, the same in the building phase log 20. -/
def Obligations.HostReadsAndWritesViews : Prop :=
  ∀ (s : State) (rest : List HostAction), s.busy = false →
    (∀ v : View, v.wf = true →
      (s.host = .lendIn v :: rest → step s = .next { s with host := rest, inView := v }) ∧
      (s.host = .lendOut v :: rest → step s = .next { s with host := rest, outView := v })) ∧
    (∀ (a : Nat) (b : Byte), a < s.inView.size →
      (s.host = .storeIn a b :: rest → s.inView.mem.wf = true →
        ∃ t, step s = .next t ∧
          t = { s with host := rest, inView := { s.inView with mem := t.inView.mem } } ∧
          ∀ x, t.inByte x = if x = a then b else s.inByte x) ∧
      (s.host = .loadIn a :: rest →
        step s = .next { s with host := rest, readData := (s.inByte a).toNat })) ∧
    (∀ (a : Nat) (b : Byte), a < s.outView.size →
      (s.host = .storeOut a b :: rest → s.outView.mem.wf = true →
        ∃ t, step s = .next t ∧
          t = { s with host := rest, outView := { s.outView with mem := t.outView.mem } } ∧
          ∀ x, t.outByte x = if x = a then b else s.outByte x) ∧
      (s.host = .loadOut a :: rest →
        step s = .next { s with host := rest, readData := (s.outByte a).toNat }))

/-- While no operation runs, a waiting host and a reset that is not yet due let the CLM move: a ready machine
changes nothing else (R151), a building one runs its next build (R150). The host's list is log 2, the order of
the builds log 8, the idle step log 19. -/
def Obligations.WaitAndPendingResetLetTheMachineMove : Prop :=
  ∀ (s : State) (rest after : List HostAction), s.busy = false →
    s.host = .wait :: rest ∧ after = rest ∨
      (∃ k, s.host = .reset (k + 1) :: rest ∧ after = .reset k :: rest) →
    (s.lutReady = true → step s = .next { s with host := after }) ∧
    (s.lutReady = false → s.hueBuilt = false → step s = exec .buildHue { s with host := after }) ∧
    (s.lutReady = false → s.hueBuilt = true → step s = exec .buildPack { s with host := after })

/-- A host action that no host can make is refused: a value wider than its register, a view that is not
canonical, a byte outside the host's own buffer: the model's stop, logs 5, 9 and 11. -/
def Obligations.ImpossibleHostActionsRefused : Prop :=
  ∀ (s : State) (a : HostAction) (rest : List HostAction), s.busy = false → s.host = a :: rest →
    (∃ v, 256 ≤ v ∧ (a = .write .cmd v ∨ a = .write .status v)) ∨
      (∃ v, 2 ^ s.hw.addrW ≤ v ∧ (a = .write .inLen v ∨ a = .write .outCap v)) ∨
      (∃ v : View, v.wf = false ∧ (a = .lendIn v ∨ a = .lendOut v)) ∨
      (∃ o b, s.inView.size ≤ o ∧ (a = .storeIn o b ∨ a = .loadIn o)) ∨
      (∃ o b, s.outView.size ≤ o ∧ (a = .storeOut o b ∨ a = .loadOut o)) →
    step s = .refused .illFormedHostAction
end

