-- ==== Sys2Proof/Laws/State.lean ====
section
/-! SUPPORT. What each named update of the state does to each field, true by definition. -/

namespace Sys2Proof.Machine

/-! ### setOut -/

@[simp] theorem setOut_hw (m : Memory) (s : State) : (setOut m s).hw = s.hw := rfl
@[simp] theorem setOut_hueLut (m : Memory) (s : State) : (setOut m s).hueLut = s.hueLut := rfl
@[simp] theorem setOut_packLut (m : Memory) (s : State) : (setOut m s).packLut = s.packLut := rfl
@[simp] theorem setOut_hueBuilt (m : Memory) (s : State) : (setOut m s).hueBuilt = s.hueBuilt := rfl
@[simp] theorem setOut_packBuilt (m : Memory) (s : State) : (setOut m s).packBuilt = s.packBuilt := rfl
@[simp] theorem setOut_op (m : Memory) (s : State) : (setOut m s).op = s.op := rfl
@[simp] theorem setOut_inLen (m : Memory) (s : State) : (setOut m s).inLen = s.inLen := rfl
@[simp] theorem setOut_outCap (m : Memory) (s : State) : (setOut m s).outCap = s.outCap := rfl
@[simp] theorem setOut_inLenWritten (m : Memory) (s : State) : (setOut m s).inLenWritten = s.inLenWritten := rfl
@[simp] theorem setOut_outCapWritten (m : Memory) (s : State) : (setOut m s).outCapWritten = s.outCapWritten := rfl
@[simp] theorem setOut_pos (m : Memory) (s : State) : (setOut m s).pos = s.pos := rfl
@[simp] theorem setOut_result (m : Memory) (s : State) : (setOut m s).result = s.result := rfl
@[simp] theorem setOut_done (m : Memory) (s : State) : (setOut m s).done = s.done := rfl
@[simp] theorem setOut_busy (m : Memory) (s : State) : (setOut m s).busy = s.busy := rfl
@[simp] theorem setOut_lutReady (m : Memory) (s : State) : (setOut m s).lutReady = s.lutReady := rfl
@[simp] theorem setOut_inView (m : Memory) (s : State) : (setOut m s).inView = s.inView := rfl
@[simp] theorem setOut_outView (m : Memory) (s : State) : (setOut m s).outView = { s.outView with mem := m } := rfl
@[simp] theorem setOut_host (m : Memory) (s : State) : (setOut m s).host = s.host := rfl
@[simp] theorem setOut_readData (m : Memory) (s : State) : (setOut m s).readData = s.readData := rfl
@[simp] theorem setOut_outStart (m : Memory) (s : State) : (setOut m s).outStart = s.outStart := rfl
@[simp] theorem setOut_draws (m : Memory) (s : State) : (setOut m s).draws = s.draws := rfl

/-! ### advancePos -/

@[simp] theorem advancePos_hw (s : State) : (advancePos s).hw = s.hw := rfl
@[simp] theorem advancePos_hueLut (s : State) : (advancePos s).hueLut = s.hueLut := rfl
@[simp] theorem advancePos_packLut (s : State) : (advancePos s).packLut = s.packLut := rfl
@[simp] theorem advancePos_hueBuilt (s : State) : (advancePos s).hueBuilt = s.hueBuilt := rfl
@[simp] theorem advancePos_packBuilt (s : State) : (advancePos s).packBuilt = s.packBuilt := rfl
@[simp] theorem advancePos_op (s : State) : (advancePos s).op = s.op := rfl
@[simp] theorem advancePos_inLen (s : State) : (advancePos s).inLen = s.inLen := rfl
@[simp] theorem advancePos_outCap (s : State) : (advancePos s).outCap = s.outCap := rfl
@[simp] theorem advancePos_inLenWritten (s : State) : (advancePos s).inLenWritten = s.inLenWritten := rfl
@[simp] theorem advancePos_outCapWritten (s : State) : (advancePos s).outCapWritten = s.outCapWritten := rfl
@[simp] theorem advancePos_pos (s : State) : (advancePos s).pos = s.pos + 1 := rfl
@[simp] theorem advancePos_result (s : State) : (advancePos s).result = s.result := rfl
@[simp] theorem advancePos_done (s : State) : (advancePos s).done = s.done := rfl
@[simp] theorem advancePos_busy (s : State) : (advancePos s).busy = s.busy := rfl
@[simp] theorem advancePos_lutReady (s : State) : (advancePos s).lutReady = s.lutReady := rfl
@[simp] theorem advancePos_inView (s : State) : (advancePos s).inView = s.inView := rfl
@[simp] theorem advancePos_outView (s : State) : (advancePos s).outView = s.outView := rfl
@[simp] theorem advancePos_host (s : State) : (advancePos s).host = s.host := rfl
@[simp] theorem advancePos_readData (s : State) : (advancePos s).readData = s.readData := rfl
@[simp] theorem advancePos_outStart (s : State) : (advancePos s).outStart = s.outStart := rfl
@[simp] theorem advancePos_draws (s : State) : (advancePos s).draws = s.draws := rfl

/-! ### started -/

@[simp] theorem started_hw (op : BitVec 2) (s : State) : (started op s).hw = s.hw := rfl
@[simp] theorem started_hueLut (op : BitVec 2) (s : State) : (started op s).hueLut = s.hueLut := rfl
@[simp] theorem started_packLut (op : BitVec 2) (s : State) : (started op s).packLut = s.packLut := rfl
@[simp] theorem started_hueBuilt (op : BitVec 2) (s : State) : (started op s).hueBuilt = s.hueBuilt := rfl
@[simp] theorem started_packBuilt (op : BitVec 2) (s : State) : (started op s).packBuilt = s.packBuilt := rfl
@[simp] theorem started_op (op : BitVec 2) (s : State) : (started op s).op = op := rfl
@[simp] theorem started_inLen (op : BitVec 2) (s : State) : (started op s).inLen = s.inLen := rfl
@[simp] theorem started_outCap (op : BitVec 2) (s : State) : (started op s).outCap = s.outCap := rfl
@[simp] theorem started_inLenWritten (op : BitVec 2) (s : State) : (started op s).inLenWritten = s.inLenWritten := rfl
@[simp] theorem started_outCapWritten (op : BitVec 2) (s : State) : (started op s).outCapWritten = s.outCapWritten := rfl
@[simp] theorem started_pos (op : BitVec 2) (s : State) : (started op s).pos = 0 := rfl
@[simp] theorem started_result (op : BitVec 2) (s : State) : (started op s).result = s.result := rfl
@[simp] theorem started_done (op : BitVec 2) (s : State) : (started op s).done = false := rfl
@[simp] theorem started_busy (op : BitVec 2) (s : State) : (started op s).busy = true := rfl
@[simp] theorem started_lutReady (op : BitVec 2) (s : State) : (started op s).lutReady = s.lutReady := rfl
@[simp] theorem started_inView (op : BitVec 2) (s : State) : (started op s).inView = s.inView := rfl
@[simp] theorem started_outView (op : BitVec 2) (s : State) : (started op s).outView = s.outView := rfl
@[simp] theorem started_host (op : BitVec 2) (s : State) : (started op s).host = s.host := rfl
@[simp] theorem started_readData (op : BitVec 2) (s : State) : (started op s).readData = s.readData := rfl
@[simp] theorem started_outStart (op : BitVec 2) (s : State) : (started op s).outStart = s.outView.mem := rfl
@[simp] theorem started_draws (op : BitVec 2) (s : State) : (started op s).draws = s.draws := rfl

/-! ### endOp -/

@[simp] theorem endOp_hw (k : Result) (s : State) : (endOp k s).hw = s.hw := rfl
@[simp] theorem endOp_hueLut (k : Result) (s : State) : (endOp k s).hueLut = s.hueLut := rfl
@[simp] theorem endOp_packLut (k : Result) (s : State) : (endOp k s).packLut = s.packLut := rfl
@[simp] theorem endOp_hueBuilt (k : Result) (s : State) : (endOp k s).hueBuilt = s.hueBuilt := rfl
@[simp] theorem endOp_packBuilt (k : Result) (s : State) : (endOp k s).packBuilt = s.packBuilt := rfl
@[simp] theorem endOp_op (k : Result) (s : State) : (endOp k s).op = s.op := rfl
@[simp] theorem endOp_inLen (k : Result) (s : State) : (endOp k s).inLen = s.inLen := rfl
@[simp] theorem endOp_outCap (k : Result) (s : State) : (endOp k s).outCap = s.outCap := rfl
@[simp] theorem endOp_inLenWritten (k : Result) (s : State) : (endOp k s).inLenWritten = s.inLenWritten := rfl
@[simp] theorem endOp_outCapWritten (k : Result) (s : State) : (endOp k s).outCapWritten = s.outCapWritten := rfl
@[simp] theorem endOp_pos (k : Result) (s : State) : (endOp k s).pos = s.pos := rfl
@[simp] theorem endOp_result (k : Result) (s : State) : (endOp k s).result = k := rfl
@[simp] theorem endOp_done (k : Result) (s : State) : (endOp k s).done = true := rfl
@[simp] theorem endOp_busy (k : Result) (s : State) : (endOp k s).busy = false := rfl
@[simp] theorem endOp_lutReady (k : Result) (s : State) : (endOp k s).lutReady = s.lutReady := rfl
@[simp] theorem endOp_inView (k : Result) (s : State) : (endOp k s).inView = s.inView := rfl
@[simp] theorem endOp_outView (k : Result) (s : State) : (endOp k s).outView = s.outView := rfl
@[simp] theorem endOp_host (k : Result) (s : State) : (endOp k s).host = s.host := rfl
@[simp] theorem endOp_readData (k : Result) (s : State) : (endOp k s).readData = s.readData := rfl
@[simp] theorem endOp_outStart (k : Result) (s : State) : (endOp k s).outStart = [] := rfl
@[simp] theorem endOp_draws (k : Result) (s : State) : (endOp k s).draws = s.draws := rfl

/-! ### raiseFault -/

@[simp] theorem raiseFault_hw (k : Result) (s : State) : (raiseFault k s).hw = s.hw := rfl
@[simp] theorem raiseFault_hueLut (k : Result) (s : State) : (raiseFault k s).hueLut = s.hueLut := rfl
@[simp] theorem raiseFault_packLut (k : Result) (s : State) : (raiseFault k s).packLut = s.packLut := rfl
@[simp] theorem raiseFault_hueBuilt (k : Result) (s : State) : (raiseFault k s).hueBuilt = s.hueBuilt := rfl
@[simp] theorem raiseFault_packBuilt (k : Result) (s : State) : (raiseFault k s).packBuilt = s.packBuilt := rfl
@[simp] theorem raiseFault_op (k : Result) (s : State) : (raiseFault k s).op = s.op := rfl
@[simp] theorem raiseFault_inLen (k : Result) (s : State) : (raiseFault k s).inLen = s.inLen := rfl
@[simp] theorem raiseFault_outCap (k : Result) (s : State) : (raiseFault k s).outCap = s.outCap := rfl
@[simp] theorem raiseFault_inLenWritten (k : Result) (s : State) : (raiseFault k s).inLenWritten = s.inLenWritten := rfl
@[simp] theorem raiseFault_outCapWritten (k : Result) (s : State) : (raiseFault k s).outCapWritten = s.outCapWritten := rfl
@[simp] theorem raiseFault_pos (k : Result) (s : State) : (raiseFault k s).pos = 0 := rfl
@[simp] theorem raiseFault_result (k : Result) (s : State) : (raiseFault k s).result = k := rfl
@[simp] theorem raiseFault_done (k : Result) (s : State) : (raiseFault k s).done = true := rfl
@[simp] theorem raiseFault_busy (k : Result) (s : State) : (raiseFault k s).busy = false := rfl
@[simp] theorem raiseFault_lutReady (k : Result) (s : State) : (raiseFault k s).lutReady = s.lutReady := rfl
@[simp] theorem raiseFault_inView (k : Result) (s : State) : (raiseFault k s).inView = s.inView := rfl
@[simp] theorem raiseFault_outView (k : Result) (s : State) : (raiseFault k s).outView = s.outView := rfl
@[simp] theorem raiseFault_host (k : Result) (s : State) : (raiseFault k s).host = s.host := rfl
@[simp] theorem raiseFault_readData (k : Result) (s : State) : (raiseFault k s).readData = s.readData := rfl
@[simp] theorem raiseFault_outStart (k : Result) (s : State) : (raiseFault k s).outStart = [] := rfl
@[simp] theorem raiseFault_draws (k : Result) (s : State) : (raiseFault k s).draws = s.draws := rfl

/-! ### applyReset -/

@[simp] theorem applyReset_hw (s : State) (f : Memory) : (applyReset s f).hw = s.hw := rfl
@[simp] theorem applyReset_hueLut (s : State) (f : Memory) : (applyReset s f).hueLut = (State.resetOf s.hw).hueLut := rfl
@[simp] theorem applyReset_packLut (s : State) (f : Memory) : (applyReset s f).packLut = (State.resetOf s.hw).packLut := rfl
@[simp] theorem applyReset_hueBuilt (s : State) (f : Memory) : (applyReset s f).hueBuilt = (State.resetOf s.hw).hueBuilt := rfl
@[simp] theorem applyReset_packBuilt (s : State) (f : Memory) : (applyReset s f).packBuilt = (State.resetOf s.hw).packBuilt := rfl
@[simp] theorem applyReset_op (s : State) (f : Memory) : (applyReset s f).op = 0 := rfl
@[simp] theorem applyReset_inLen (s : State) (f : Memory) : (applyReset s f).inLen = 0 := rfl
@[simp] theorem applyReset_outCap (s : State) (f : Memory) : (applyReset s f).outCap = 0 := rfl
@[simp] theorem applyReset_inLenWritten (s : State) (f : Memory) : (applyReset s f).inLenWritten = false := rfl
@[simp] theorem applyReset_outCapWritten (s : State) (f : Memory) : (applyReset s f).outCapWritten = false := rfl
@[simp] theorem applyReset_pos (s : State) (f : Memory) : (applyReset s f).pos = 0 := rfl
@[simp] theorem applyReset_result (s : State) (f : Memory) : (applyReset s f).result = .ok := rfl
@[simp] theorem applyReset_done (s : State) (f : Memory) : (applyReset s f).done = false := rfl
@[simp] theorem applyReset_busy (s : State) (f : Memory) : (applyReset s f).busy = false := rfl
@[simp] theorem applyReset_lutReady (s : State) (f : Memory) : (applyReset s f).lutReady = (State.resetOf s.hw).lutReady := rfl
@[simp] theorem applyReset_inView (s : State) (f : Memory) : (applyReset s f).inView = s.inView := rfl
@[simp] theorem applyReset_outView (s : State) (f : Memory) : (applyReset s f).outView = if s.busy then { s.outView with mem := scrambled s f } else s.outView := rfl
@[simp] theorem applyReset_host (s : State) (f : Memory) : (applyReset s f).host = s.host := rfl
@[simp] theorem applyReset_readData (s : State) (f : Memory) : (applyReset s f).readData = s.readData := rfl
@[simp] theorem applyReset_outStart (s : State) (f : Memory) : (applyReset s f).outStart = [] := rfl
@[simp] theorem applyReset_draws (s : State) (f : Memory) : (applyReset s f).draws = if s.busy then s.draws + 1 else s.draws := rfl

/-! ### afterOperation -/

@[simp] theorem afterOperation_hw (s : State) (op : BitVec 2) (p : Nat) (k : Result) (m : Memory) : (afterOperation s op p k m).hw = s.hw := rfl
@[simp] theorem afterOperation_hueLut (s : State) (op : BitVec 2) (p : Nat) (k : Result) (m : Memory) : (afterOperation s op p k m).hueLut = s.hueLut := rfl
@[simp] theorem afterOperation_packLut (s : State) (op : BitVec 2) (p : Nat) (k : Result) (m : Memory) : (afterOperation s op p k m).packLut = s.packLut := rfl
@[simp] theorem afterOperation_hueBuilt (s : State) (op : BitVec 2) (p : Nat) (k : Result) (m : Memory) : (afterOperation s op p k m).hueBuilt = s.hueBuilt := rfl
@[simp] theorem afterOperation_packBuilt (s : State) (op : BitVec 2) (p : Nat) (k : Result) (m : Memory) : (afterOperation s op p k m).packBuilt = s.packBuilt := rfl
@[simp] theorem afterOperation_op (s : State) (op : BitVec 2) (p : Nat) (k : Result) (m : Memory) : (afterOperation s op p k m).op = op := rfl
@[simp] theorem afterOperation_inLen (s : State) (op : BitVec 2) (p : Nat) (k : Result) (m : Memory) : (afterOperation s op p k m).inLen = s.inLen := rfl
@[simp] theorem afterOperation_outCap (s : State) (op : BitVec 2) (p : Nat) (k : Result) (m : Memory) : (afterOperation s op p k m).outCap = s.outCap := rfl
@[simp] theorem afterOperation_inLenWritten (s : State) (op : BitVec 2) (p : Nat) (k : Result) (m : Memory) : (afterOperation s op p k m).inLenWritten = s.inLenWritten := rfl
@[simp] theorem afterOperation_outCapWritten (s : State) (op : BitVec 2) (p : Nat) (k : Result) (m : Memory) : (afterOperation s op p k m).outCapWritten = s.outCapWritten := rfl
@[simp] theorem afterOperation_pos (s : State) (op : BitVec 2) (p : Nat) (k : Result) (m : Memory) : (afterOperation s op p k m).pos = p := rfl
@[simp] theorem afterOperation_result (s : State) (op : BitVec 2) (p : Nat) (k : Result) (m : Memory) : (afterOperation s op p k m).result = k := rfl
@[simp] theorem afterOperation_done (s : State) (op : BitVec 2) (p : Nat) (k : Result) (m : Memory) : (afterOperation s op p k m).done = true := rfl
@[simp] theorem afterOperation_busy (s : State) (op : BitVec 2) (p : Nat) (k : Result) (m : Memory) : (afterOperation s op p k m).busy = false := rfl
@[simp] theorem afterOperation_lutReady (s : State) (op : BitVec 2) (p : Nat) (k : Result) (m : Memory) : (afterOperation s op p k m).lutReady = s.lutReady := rfl
@[simp] theorem afterOperation_inView (s : State) (op : BitVec 2) (p : Nat) (k : Result) (m : Memory) : (afterOperation s op p k m).inView = s.inView := rfl
@[simp] theorem afterOperation_outView (s : State) (op : BitVec 2) (p : Nat) (k : Result) (m : Memory) : (afterOperation s op p k m).outView = { s.outView with mem := m } := rfl
@[simp] theorem afterOperation_host (s : State) (op : BitVec 2) (p : Nat) (k : Result) (m : Memory) : (afterOperation s op p k m).host = s.host := rfl
@[simp] theorem afterOperation_readData (s : State) (op : BitVec 2) (p : Nat) (k : Result) (m : Memory) : (afterOperation s op p k m).readData = s.readData := rfl
@[simp] theorem afterOperation_outStart (s : State) (op : BitVec 2) (p : Nat) (k : Result) (m : Memory) : (afterOperation s op p k m).outStart = [] := rfl
@[simp] theorem afterOperation_draws (s : State) (op : BitVec 2) (p : Nat) (k : Result) (m : Memory) : (afterOperation s op p k m).draws = s.draws := rfl

/-! ### Two updates of the output view -/

@[simp] theorem setOut_setOut (m m' : Memory) (s : State) : setOut m (setOut m' s) = setOut m s := rfl

@[simp] theorem setOut_mem (s : State) : setOut s.outView.mem s = s := rfl

@[simp] theorem outByte_setOut (m : Memory) (s : State) (a : Nat) : (setOut m s).outByte a = m.read a := rfl

@[simp] theorem inByte_setOut (m : Memory) (s : State) (a : Nat) : (setOut m s).inByte a = s.inByte a := rfl

@[simp] theorem outByte_afterOperation (s : State) (op : BitVec 2) (p : Nat) (k : Result) (m : Memory) (a : Nat) :
    (afterOperation s op p k m).outByte a = m.read a := rfl

/-- A fault leaves the started state as an operation that ended at position 0 (R134). -/
theorem raiseFault_started (k : Result) (op : BitVec 2) (s : State) :
    raiseFault k (started op s) = afterOperation s op 0 k s.outView.mem := rfl

/-- The end of an operation that has written `m` and stands at position `p` (R141). -/
theorem endOp_started (k : Result) (op : BitVec 2) (s : State) (p : Nat) (m : Memory) :
    endOp k { setOut m (started op s) with pos := p } = afterOperation s op p k m := rfl

end Sys2Proof.Machine
end

