-- ==== Sys2Proof/Laws/Memory.lean ====
section
/-! SUPPORT. The laws of a byte space: a read after a write, the canonical form kept by every memory
operation, and equality of canonical memories that read alike. -/

namespace Sys2Proof.Machine

theorem Memory.wfFrom_mono {m : Memory} {lo hi : Nat} (h : Memory.wfFrom hi m = true) (hl : lo ≤ hi) :
    Memory.wfFrom lo m = true := by
  cases m with
  | nil => rfl
  | cons c rest =>
    obtain ⟨a, b⟩ := c
    simp only [Memory.wfFrom, Bool.and_eq_true, decide_eq_true_eq] at h ⊢
    exact ⟨⟨by omega, h.1.2⟩, h.2⟩

theorem Memory.read_below {m : Memory} {lo a : Nat} (h : Memory.wfFrom lo m = true) (ha : a < lo) :
    m.read a = 0 := by
  induction m generalizing lo with
  | nil => rfl
  | cons c rest ih =>
    obtain ⟨k, b⟩ := c
    simp only [Memory.wfFrom, Bool.and_eq_true, decide_eq_true_eq] at h
    have hk : k ≠ a := by omega
    simp only [Memory.read, hk, if_false]
    exact ih h.2 (by omega)

theorem Memory.wfFrom_write {m : Memory} {lo a : Nat} (b : Byte) (h : Memory.wfFrom lo m = true)
    (ha : lo ≤ a) : Memory.wfFrom lo (m.write a b) = true := by
  induction m generalizing lo with
  | nil =>
    simp only [Memory.write]
    split <;> simp_all [Memory.wfFrom]
  | cons c rest ih =>
    obtain ⟨k, c⟩ := c
    simp only [Memory.wfFrom, Bool.and_eq_true, decide_eq_true_eq] at h
    obtain ⟨⟨hk, hc⟩, hr⟩ := h
    simp only [Memory.write]
    split
    · split <;> simp_all [Memory.wfFrom]
    · split
      · subst a
        split
        · exact Memory.wfFrom_mono hr (by omega)
        · simp_all [Memory.wfFrom]
      · simp only [Memory.wfFrom, Bool.and_eq_true, decide_eq_true_eq]
        exact ⟨⟨hk, hc⟩, ih hr (by omega)⟩

/-- A write keeps the canonical form. -/
theorem Memory.wf_write {m : Memory} (a : Nat) (b : Byte) (h : m.wf = true) : (m.write a b).wf = true :=
  Memory.wfFrom_write b h (Nat.zero_le a)

/-- A cell put in front of a list that reads 0 at its offset, or dropped when it holds 0. -/
theorem Memory.read_put {rest : Memory} {a : Nat} (b : Byte) (x : Nat) (h0 : rest.read a = 0) :
    (if b = 0 then rest else (a, b) :: rest : Memory).read x = if x = a then b else rest.read x := by
  by_cases hb : b = 0
  · rw [if_pos hb]
    split
    next hx => rw [hx, h0, hb]
    next => rfl
  · rw [if_neg hb]
    simp only [Memory.read, eq_comm]

theorem Memory.read_write_from {m : Memory} {lo : Nat} (h : Memory.wfFrom lo m = true) (a : Nat) (b : Byte)
    (x : Nat) : (m.write a b).read x = if x = a then b else m.read x := by
  induction m generalizing lo with
  | nil => exact Memory.read_put b x rfl
  | cons c rest ih =>
    obtain ⟨k, c⟩ := c
    have hcons := h
    simp only [Memory.wfFrom, Bool.and_eq_true, decide_eq_true_eq] at h
    obtain ⟨⟨hk, hc⟩, hr⟩ := h
    simp only [Memory.write]
    split
    next hak =>
      refine Memory.read_put b x ?_
      rw [Memory.read, if_neg (by omega)]
      exact Memory.read_below hr (by omega)
    next hak =>
      split
      next hEq =>
        subst hEq
        rw [Memory.read_put b x (Memory.read_below hr (by omega))]
        split
        next => rfl
        next hx => rw [Memory.read, if_neg (Ne.symm hx)]
      next hNe =>
        simp only [Memory.read]
        by_cases hkx : k = x
        · rw [if_pos hkx, if_pos hkx, if_neg (by omega)]
        · rw [if_neg hkx, if_neg hkx]
          exact ih hr

/-- A read after a write: the byte written at its offset, every other offset as before. -/
theorem Memory.read_write {m : Memory} (h : m.wf = true) (a : Nat) (b : Byte) (x : Nat) :
    (m.write a b).read x = if x = a then b else m.read x :=
  Memory.read_write_from h a b x

/-- Bytes written at rising offsets keep the canonical form. -/
theorem Memory.wf_writeBytes {m : Memory} (a : Nat) (bs : List Byte) (h : m.wf = true) :
    (m.writeBytes a bs).wf = true := by
  induction bs generalizing m a with
  | nil => exact h
  | cons b bs ih => exact ih (a + 1) (Memory.wf_write a b h)

/-- A read outside the bytes written. -/
theorem Memory.read_writeBytes_outside {m : Memory} (h : m.wf = true) {a x : Nat} {bs : List Byte}
    (hx : x < a ∨ a + bs.length ≤ x) : (m.writeBytes a bs).read x = m.read x := by
  induction bs generalizing m a with
  | nil => rfl
  | cons b bs ih =>
    simp only [List.length_cons] at hx
    simp only [Memory.writeBytes]
    rw [ih (Memory.wf_write a b h) (by omega), Memory.read_write h, if_neg (by omega)]

/-- A read of the bytes written. -/
theorem Memory.read_writeBytes_inside {m : Memory} (h : m.wf = true) (a : Nat) {bs : List Byte} {i : Nat}
    (hi : i < bs.length) : (m.writeBytes a bs).read (a + i) = bs[i] := by
  induction bs generalizing m a i with
  | nil => simp at hi
  | cons b bs ih =>
    simp only [Memory.writeBytes]
    cases i with
    | zero =>
      rw [Memory.read_writeBytes_outside (Memory.wf_write a b h) (by omega), Memory.read_write h]
      simp
    | succ i =>
      have := ih (Memory.wf_write a b h) (a + 1) (i := i) (by simpa using hi)
      rw [show a + (i + 1) = a + 1 + i by omega, this]
      rfl

theorem Memory.eq_of_read_from {m m' : Memory} {lo : Nat} (h : Memory.wfFrom lo m = true)
    (h' : Memory.wfFrom lo m' = true) (hr : ∀ a, m.read a = m'.read a) : m = m' := by
  induction m generalizing lo m' with
  | nil =>
    cases m' with
    | nil => rfl
    | cons c' rest' =>
      obtain ⟨k', b'⟩ := c'
      simp only [Memory.wfFrom, Bool.and_eq_true, decide_eq_true_eq] at h'
      have := hr k'
      simp [Memory.read] at this
      exact absurd this.symm h'.1.2
  | cons c rest ih =>
    obtain ⟨k, b⟩ := c
    simp only [Memory.wfFrom, Bool.and_eq_true, decide_eq_true_eq] at h
    cases m' with
    | nil =>
      have := hr k
      simp [Memory.read] at this
      exact absurd this h.1.2
    | cons c' rest' =>
      obtain ⟨k', b'⟩ := c'
      simp only [Memory.wfFrom, Bool.and_eq_true, decide_eq_true_eq] at h'
      have hk : k = k' := by
        by_contra hne
        rcases Nat.lt_or_gt_of_ne hne with hlt | hgt
        · have := hr k
          simp only [Memory.read, if_true, Ne.symm hne, if_false] at this
          rw [Memory.read_below h'.2 (by omega)] at this
          exact h.1.2 this
        · have := hr k'
          simp only [Memory.read, if_true, hne, if_false] at this
          rw [Memory.read_below h.2 (by omega)] at this
          exact h'.1.2 this.symm
      subst hk
      have hb : b = b' := by simpa [Memory.read] using hr k
      subst hb
      rw [ih h.2 h'.2]
      intro a
      by_cases hak : a = k
      · subst hak
        rw [Memory.read_below h.2 (by omega), Memory.read_below h'.2 (by omega)]
      · simpa [Memory.read, Ne.symm hak] using hr a

/-- Canonical memories that read alike are equal. -/
theorem Memory.eq_of_read {m m' : Memory} (h : m.wf = true) (h' : m'.wf = true)
    (hr : ∀ a, m.read a = m'.read a) : m = m' :=
  Memory.eq_of_read_from h h' hr

/-- A write below a bound keeps every cell below it. -/
theorem Memory.below_write {m : Memory} {n : Nat} (a : Nat) (b : Byte) (h : ∀ c ∈ m, c.1 < n) (ha : a < n) :
    ∀ c ∈ m.write a b, c.1 < n := by
  induction m with
  | nil =>
    simp only [Memory.write]
    split
    · exact h
    · simpa using ha
  | cons c rest ih =>
    obtain ⟨k, c⟩ := c
    have hrest : ∀ c ∈ rest, c.1 < n := fun c hc => h c (List.mem_cons_of_mem _ hc)
    simp only [Memory.write]
    split
    · split
      · exact h
      · exact List.forall_mem_cons.2 ⟨ha, h⟩
    · split
      · split
        · exact hrest
        · exact List.forall_mem_cons.2 ⟨ha, hrest⟩
      · exact List.forall_mem_cons.2 ⟨h _ List.mem_cons_self, ih hrest⟩

/-- What a view's canonical form says. -/
theorem View.wf_iff {v : View} : v.wf = true ↔ v.mem.wf = true ∧ ∀ c ∈ v.mem, c.1 < v.size := by
  simp only [View.wf, Bool.and_eq_true, List.all_eq_true, decide_eq_true_eq]

theorem View.wf_mem {v : View} (h : v.wf = true) : v.mem.wf = true := (View.wf_iff.1 h).1

/-- A write inside a view keeps its canonical form. -/
theorem View.wf_write {v : View} (a : Nat) (b : Byte) (h : v.wf = true) (ha : a < v.size) :
    View.wf { v with mem := v.mem.write a b } = true := by
  rw [View.wf_iff] at h ⊢
  exact ⟨Memory.wf_write a b h.1, Memory.below_write a b h.2 ha⟩

/-- Bytes written inside a view keep its canonical form. -/
theorem View.wf_writeBytes {v : View} (a : Nat) (bs : List Byte) (h : v.wf = true)
    (ha : bs = [] ∨ a + bs.length ≤ v.size) : View.wf { v with mem := v.mem.writeBytes a bs } = true := by
  induction bs generalizing v a with
  | nil => exact h
  | cons b bs ih =>
    have hlen : a + (bs.length + 1) ≤ v.size := by simpa using ha
    exact ih (v := { v with mem := v.mem.write a b }) (a + 1) (View.wf_write a b h (by omega))
      (Or.inr (by simpa using (by omega : a + 1 + bs.length ≤ v.size)))

end Sys2Proof.Machine
end

