-- ==== Sys2Proof/Laws/Ops.lean ====
section
/-! SUPPORT. What each shared operation can do, said once. -/

namespace Sys2Proof.Machine

/-! ### Sequencing of outcomes -/

@[simp] theorem andThen_next (s : State) (k : State → Out) : andThen (.next s) k = k s := rfl
@[simp] theorem andThen_fault (f : Fault) (k : State → Out) : andThen (.fault f) k = .fault f := rfl
@[simp] theorem andThen_refused (r : Refusal) (k : State → Out) : andThen (.refused r) k = .refused r := rfl

theorem andThen_eq_next {o : Out} {k : State → Out} {t : State} :
    andThen o k = .next t ↔ ∃ s, o = .next s ∧ k s = .next t := by
  cases o <;> simp [andThen]

theorem andThen_eq_fault {o : Out} {k : State → Out} {f : Fault} :
    andThen o k = .fault f ↔ o = .fault f ∨ ∃ s, o = .next s ∧ k s = .fault f := by
  cases o <;> simp [andThen]

/-! ### Bytes of the views -/

theorem readIn_of_lt {s : State} {a : Nat} (h : a < s.inLen) (h' : a < s.inView.size) :
    readIn s a = some (s.inByte a) := by
  simp [readIn, h, h', State.inByte]

/-- Bytes that have their place in the output view are written (R9). -/
theorem writeOutBytes_of_fits {a : Nat} {bs : List Byte} {s : State} (hc : a + bs.length ≤ s.outCap)
    (hs : a + bs.length ≤ s.outView.size) :
    writeOutBytes a bs s = .next (setOut (s.outView.mem.writeBytes a bs) s) := by
  induction bs generalizing a s with
  | nil => rfl
  | cons b bs ih =>
    simp only [List.length_cons] at hc hs
    have hw : writeOut a b s = .next (setOut (s.outView.mem.write a b) s) := by
      rw [writeOut, if_pos ⟨by omega, by omega⟩]
    rw [writeOutBytes, hw, andThen_next,
      ih (by simpa using (by omega : a + 1 + bs.length ≤ s.outCap))
        (by simpa using (by omega : a + 1 + bs.length ≤ s.outView.size))]
    rfl

/-- Everything a write of bytes can do: write them where they fit, else fault. -/
theorem writeOutBytes_cases (a : Nat) (bs : List Byte) (s : State) :
    ((bs = [] ∨ a + bs.length ≤ s.outCap ∧ a + bs.length ≤ s.outView.size) ∧
      writeOutBytes a bs s = .next (setOut (s.outView.mem.writeBytes a bs) s)) ∨
    writeOutBytes a bs s = .fault .writeOutsideView := by
  induction bs generalizing a s with
  | nil => exact Or.inl ⟨Or.inl rfl, rfl⟩
  | cons b bs ih =>
    by_cases h : a < s.outCap ∧ a < s.outView.size
    · have hw : writeOut a b s = .next (setOut (s.outView.mem.write a b) s) := by rw [writeOut, if_pos h]
      rcases ih (a + 1) (setOut (s.outView.mem.write a b) s) with ⟨hfit, heq⟩ | hf
      · refine Or.inl ⟨Or.inr ?_, ?_⟩
        · rcases hfit with rfl | ⟨h1, h2⟩
          · simpa using ⟨by omega, by omega⟩
          · simp only [setOut_outCap, setOut_outView] at h1 h2
            simp only [List.length_cons]
            omega
        · rw [writeOutBytes, hw, andThen_next, heq]
          rfl
      · exact Or.inr (by rw [writeOutBytes, hw, andThen_next, hf])
    · exact Or.inr (by rw [writeOutBytes, writeOut, if_neg h]; rfl)

@[simp] theorem pixelBytes_length (c : Rgb) : (pixelBytes c).length = 3 := rfl

@[simp] theorem fillBytes_length (c : Rgb) (k : Nat) : (fillBytes c k).length = 3 * k := by
  induction k with
  | zero => rfl
  | succ k ih => simp only [fillBytes, List.length_append, pixelBytes_length, ih]; omega

/-- Byte `i` of a fill is channel `i mod 3` of its color (R112). -/
theorem fillBytes_get {c : Rgb} {k i : Nat} (hi : i < (fillBytes c k).length) :
    (fillBytes c k)[i] = (if i % 3 = 0 then c.r else if i % 3 = 1 then c.g else c.b) := by
  induction k generalizing i with
  | zero => simp [fillBytes] at hi
  | succ k ih =>
    simp only [fillBytes]
    by_cases h : i < 3
    · rw [List.getElem_append_left (by simpa using h)]
      interval_cases i <;> rfl
    · rw [List.getElem_append_right (by simpa using h)]
      have e : (i - (pixelBytes c).length) % 3 = i % 3 := by simp only [pixelBytes_length]; omega
      rw [ih]
      simp only [e]

theorem segHi_eq (t : SegTable) (k : Nat) : segHi t k = segLo t k + 3 * (segDesc t k).count.toNat := by
  simp [segHi, Config.bpp, Nat.mul_comm]

/-! ### Checks -/

/-- When `HSLDEC` passes its checks (R90, R138). -/
theorem hsldecCheck_eq_none {s : State} :
    hsldecCheck s = none ↔ s.inLen % 2 = 0 ∧ 3 * (s.inLen / 2) ≤ s.outCap := by
  unfold hsldecCheck
  split
  · simp; omega
  · split <;> simp <;> omega

/-- When `RGBDEC` passes its check (R100, R138). -/
theorem rgbdecCheck_eq_none {s : State} : rgbdecCheck s = none ↔ 3 * s.inLen ≤ s.outCap := by
  unfold rgbdecCheck
  split <;> simp <;> omega

theorem segmentsFit_iff {t : SegTable} {n cap : Nat} :
    segmentsFit t n cap = true ↔ ∀ k, k < n → segHi t k ≤ cap := by
  simp [segmentsFit]

/-- When `SEGMAP` passes its checks (R110, R113, R114, R138). -/
theorem segmapCheck_eq_none {s : State} :
    segmapCheck s = none ↔ s.inLen % 2 = 0 ∧ ∀ k, k < s.inLen / 2 → segHi s.hw.segTable k ≤ s.outCap := by
  unfold segmapCheck
  rw [← segmentsFit_iff]
  split
  · simp; omega
  · split
    · simp; exact ⟨by omega, by assumption⟩
    · next hfit => simp [hfit]

/-- The checks read the arguments and `SEG_TABLE` only (R138). -/
theorem operationCheck_congr {s t : State} (hop : t.op = s.op) (hlen : t.inLen = s.inLen)
    (hcap : t.outCap = s.outCap) (hseg : t.hw.segTable = s.hw.segTable) :
    operationCheck t = operationCheck s := by
  unfold operationCheck hsldecCheck rgbdecCheck segmapCheck
  rw [hop, hlen, hcap, hseg]

/-! ### Elements -/

/-- `elementGuard` lets an element run exactly when the operation has one of its form left. -/
theorem elementGuard_eq_none {p : Place} {s : State} : elementGuard p s = none ↔ s.AtElement p := by
  unfold elementGuard
  constructor
  · intro h
    split at h
    · cases h
    split at h
    · cases h
    split at h
    · cases h
    split at h
    · cases h
    · simp_all only [Bool.not_eq_false, ne_eq, not_not, Nat.not_le]
      exact ⟨by assumption, by assumption, by assumption, by assumption⟩
  · intro ⟨h1, h2, h3, h4⟩
    simp [h1, h2, h3, Nat.not_le.2 h4]

@[simp] theorem paintBytes_length (s : State) (c c' : Rgb) :
    (paintBytes s c).length = (paintBytes s c').length := by
  simp only [paintBytes]
  split <;> simp

theorem paintOffset_decoder {s : State} (h : s.op ≠ 2) : paintOffset s = 3 * s.pos := if_neg h

theorem paintBytes_decoder {s : State} (h : s.op ≠ 2) (c : Rgb) : paintBytes s c = pixelBytes c := if_neg h

theorem paintOffset_segmap {s : State} (h : s.op = 2) : paintOffset s = segLo s.hw.segTable s.pos := if_pos h

theorem paintBytes_segmap {s : State} (h : s.op = 2) (c : Rgb) :
    paintBytes s c = fillBytes c (segDesc s.hw.segTable s.pos).count.toNat := if_pos h

/-- The state after an element of color `c` has been written (R91, R102, R117). -/
def paintedState (c : Rgb) (s : State) : State :=
  advancePos (setOut (s.outView.mem.writeBytes (paintOffset s) (paintBytes s c)) s)

/-- An element's color that fits is written, and `POS` advances. -/
theorem paint_of_fits {c : Rgb} {s : State} (hc : paintOffset s + (paintBytes s c).length ≤ s.outCap)
    (hs : paintOffset s + (paintBytes s c).length ≤ s.outView.size) : paint c s = .next (paintedState c s) := by
  rw [paint, writeOutBytes_of_fits hc hs]
  rfl

/-- Everything painting can do. -/
theorem paint_cases (c : Rgb) (s : State) :
    ((paintBytes s c = [] ∨ paintOffset s + (paintBytes s c).length ≤ s.outCap ∧
        paintOffset s + (paintBytes s c).length ≤ s.outView.size) ∧ paint c s = .next (paintedState c s)) ∨
    paint c s = .fault .writeOutsideView := by
  rcases writeOutBytes_cases (paintOffset s) (paintBytes s c) s with ⟨h, e⟩ | e
  · exact Or.inl ⟨h, by rw [paint, e]; rfl⟩
  · exact Or.inr (by rw [paint, e]; rfl)

theorem runForm_of_atElement {p : Place} {c : Rgb} {s : State} (h : s.AtElement p) :
    runForm p c s = paint c s := by
  rw [runForm, elementGuard_eq_none.2 h]

/-- An element form that answers a next state ran where it could, and painted. -/
theorem runForm_eq_next {p : Place} {c : Rgb} {s t : State} (h : runForm p c s = .next t) :
    s.AtElement p ∧ paint c s = .next t := by
  unfold runForm at h
  split at h
  · cases h
  · exact ⟨elementGuard_eq_none.1 (by assumption), h⟩

theorem runForm_eq_fault {p : Place} {c : Rgb} {s : State} {f : Fault} (h : runForm p c s = .fault f) :
    s.AtElement p ∧ paint c s = .fault f := by
  unfold runForm at h
  split at h
  · cases h
  · exact ⟨elementGuard_eq_none.1 (by assumption), h⟩

/-! ### Decoded elements -/

theorem field_low7 (n : Nat) : field n 6 0 = n % 128 := by simp [field]

theorem field_bit7 {n : Nat} (h : n < 256) : field n 7 7 = n / 128 := by
  simp only [field]
  omega

theorem lightByte_dark {l : Byte} (h : l.toNat < 128) :
    lightByte false (BitVec.ofNat 7 (field l.toNat 6 0)) = l := by
  apply BitVec.eq_of_toNat_eq
  simp only [lightByte, shl, field_low7, BitVec.toNat_ofNat, Bool.toNat_false]
  omega

theorem lightByte_light {l : Byte} (h : 128 ≤ l.toNat) :
    lightByte true (BitVec.ofNat 7 (field l.toNat 6 0)) = l := by
  apply BitVec.eq_of_toNat_eq
  have := l.isLt
  simp only [lightByte, shl, field_low7, BitVec.toNat_ofNat, Bool.toNat_true]
  omega

theorem packedByte_fields (p : Byte) :
    packedByte (BitVec.ofNat 3 (field p.toNat 7 5)) (BitVec.ofNat 3 (field p.toNat 4 2))
      (BitVec.ofNat 2 (field p.toNat 1 0)) = p := by
  apply BitVec.eq_of_toNat_eq
  have := p.isLt
  simp only [packedByte, shl, field, BitVec.toNat_ofNat]
  omega

/-- A decoded HSL element runs as its `Shade` (R80: the form is the lightness' high bit). -/
theorem runElement_decodeHsl (h l : Byte) (s : State) :
    runElement (decodeHsl h l) s = runForm .hslStream (shade (entry s.hueLut h) l) s := by
  have hl := field_bit7 l.isLt
  unfold decodeHsl
  by_cases hlt : l.toNat < 128
  · rw [if_pos (by omega)]
    simp only [runElement, execPxDark, lightByte_dark hlt, shade, if_pos hlt]
  · rw [if_neg (by omega)]
    simp only [runElement, execPxLight, lightByte_light (Nat.le_of_not_lt hlt), shade, if_neg hlt]

/-- A decoded RGB332 element runs as its look-up (R101). -/
theorem runElement_decodeRgb332 (p : Byte) (s : State) :
    runElement (decodeRgb332 p) s = runForm .rgbStream (entry s.packLut p) s := by
  simp only [decodeRgb332, runElement, execPxRgb332, packedByte_fields]

theorem elementPlace_cases (op : BitVec 2) :
    elementPlace op = some .hslStream ∧ elementLength op = 2 ∧ op ≠ 1 ∧ op ≠ 3 ∨
    elementPlace op = some .rgbStream ∧ elementLength op = 1 ∧ op = 1 ∨
    elementPlace op = none ∧ op = 3 := by
  revert op
  decide

/-- The color of element `i` of the stream the operation reads. -/
def elementColor (s : State) (i : Nat) : Rgb :=
  if s.op = 1 then s.rgbColor i else s.hslColor i

/-- An element step of a running operation whose stream is really there paints the element's color. -/
theorem elementStep_eq_paint {s : State} {p : Place} (h : s.AtElement p) (hin : s.inLen ≤ s.inView.size) :
    elementStep s = paint (elementColor s s.pos) s := by
  have hleft := h.left
  unfold elementCount at hleft
  rcases elementPlace_cases s.op with ⟨hp, hl, h1, -⟩ | ⟨hp, hl, h1⟩ | ⟨hp, -⟩
  · have hpp : p = .hslStream := by have := h.form; rw [hp] at this; simpa using this.symm
    subst hpp
    rw [hl] at hleft
    have hb : elementBytes s = some [s.inByte (2 * s.pos), s.inByte (2 * s.pos + 1)] := by
      simp only [elementBytes, hl, readInBytes]
      rw [readIn_of_lt (by omega) (by omega), readIn_of_lt (by omega) (by omega)]
    simp only [elementStep, hp, hb, decode, runElement_decodeHsl]
    rw [runForm_of_atElement h, elementColor, if_neg h1]
    rfl
  · have hpp : p = .rgbStream := by have := h.form; rw [hp] at this; simpa using this.symm
    subst hpp
    rw [hl] at hleft
    have hb : elementBytes s = some [s.inByte s.pos] := by
      simp only [elementBytes, hl, readInBytes, Nat.one_mul]
      rw [readIn_of_lt (by omega) (by omega)]
    simp only [elementStep, hp, hb, decode, runElement_decodeRgb332]
    rw [runForm_of_atElement h, elementColor, if_pos h1]
    rfl
  · have := h.form
    rw [hp] at this
    cases this

/-- Everything an element step that answers a next state does: it paints some color. -/
theorem elementStep_eq_next {s t : State} (h : elementStep s = .next t) :
    ∃ p c, s.AtElement p ∧ paint c s = .next t := by
  unfold elementStep at h
  split at h
  · cases h
  split at h
  · cases h
  split at h
  · next i _ _ =>
    cases i <;> simp only [runElement] at h
    all_goals first
      | cases h
      | exact ⟨_, _, runForm_eq_next h⟩
  · cases h

/-- The bytes of the next element do not depend on what the host will do. -/
theorem elementBytes_withHost (s : State) (host : List HostAction) :
    elementBytes { s with host := host } = elementBytes s := by
  rcases elementPlace_cases s.op with ⟨-, hl, -⟩ | ⟨-, hl, -⟩ | ⟨-, hop⟩
  · simp only [elementBytes, hl, readInBytes, readIn]
  · simp only [elementBytes, hl, readInBytes, readIn]
  · have hl : elementLength s.op = 2 := by rw [hop]; rfl
    simp only [elementBytes, hl, readInBytes, readIn]

/-- The instruction decoded from a stream runs as exec runs it. -/
theorem runElement_eq_exec {p : Place} {bs rest : List Byte} {i : Instr}
    (hp : p = .hslStream ∨ p = .rgbStream) (h : decode p bs = .ok (i, rest)) (s : State) :
    runElement i s = exec i s := by
  rcases hp with rfl | rfl
  · match bs, h with
    | a :: b :: rest, h =>
      simp only [decode, Except.ok.injEq, Prod.mk.injEq, decodeHsl] at h
      obtain ⟨rfl, -⟩ := h
      split <;> rfl
  · match bs, h with
    | a :: rest, h =>
      simp only [decode, Except.ok.injEq, Prod.mk.injEq, decodeRgb332] at h
      obtain ⟨rfl, -⟩ := h
      rfl

/-- An element step runs the element decoded at `POS` (R91, R102, R117). -/
theorem elementStep_eq_exec {s : State} {p : Place} {bs rest : List Byte} {i : Instr}
    (hform : elementPlace s.op = some p) (hbytes : elementBytes s = some bs)
    (hdecode : decode p bs = .ok (i, rest)) : elementStep s = exec i s := by
  have hp : p = .hslStream ∨ p = .rgbStream := by
    rcases elementPlace_cases s.op with h | h | h <;> simp [hform] at h <;> simp [h.1]
  simp only [elementStep, hform, hbytes, hdecode]
  exact runElement_eq_exec hp hdecode s

end Sys2Proof.Machine
end

