-- ==== Sys2Proof/Laws/Operations.lean ====
section
/-! SUPPORT. What a stream of elements, an operation, an instruction and a step can do, said once. -/

namespace Sys2Proof.Machine

/-! ### Streams -/

/-- `OUT` after the elements `p`, …, `p + k - 1` of the running operation have been painted on `m`. -/
def streamMem (s : State) : Nat → Nat → Memory → Memory
  | _, 0, m => m
  | p, k + 1, m =>
    streamMem s (p + 1) k
      (m.writeBytes (paintOffset { s with pos := p }) (paintBytes { s with pos := p } (elementColor s p)))

/-- Painting on another output view, or from another position, paints the same stream. -/
theorem streamMem_congr {s s' : State} (hseg : s'.hw.segTable = s.hw.segTable) (hop : s'.op = s.op)
    (hc : ∀ i, elementColor s' i = elementColor s i) (p k : Nat) (m : Memory) :
    streamMem s' p k m = streamMem s p k m := by
  induction k generalizing p m with
  | zero => rfl
  | succ k ih =>
    simp only [streamMem, ih, hc]
    simp only [paintOffset, paintBytes, hseg, hop]

theorem streamMem_succ (s : State) (p k : Nat) (m : Memory) :
    streamMem s p (k + 1) m =
      (streamMem s p k m).writeBytes (paintOffset { s with pos := p + k })
        (paintBytes { s with pos := p + k } (elementColor s (p + k))) := by
  induction k generalizing p m with
  | zero => rfl
  | succ k ih =>
    rw [streamMem, ih]
    rw [show p + 1 + k = p + (k + 1) by omega]
    rfl

theorem wf_streamMem (s : State) {m : Memory} (h : m.wf = true) (p k : Nat) :
    (streamMem s p k m).wf = true := by
  induction k generalizing p m with
  | zero => exact h
  | succ k ih => exact ih (Memory.wf_writeBytes _ _ h) (p + 1)

/-- At each offset a stream paints the same byte on every canonical memory, or leaves what is there. -/
theorem streamMem_reads (s : State) (n a : Nat) :
    (∃ v, ∀ m : Memory, m.wf = true → (streamMem s 0 n m).read a = v) ∨
      ∀ m : Memory, m.wf = true → (streamMem s 0 n m).read a = m.read a := by
  induction n with
  | zero => exact Or.inr fun m _ => rfl
  | succ n ih =>
    simp only [streamMem_succ]
    generalize paintOffset { s with pos := 0 + n } = off
    generalize paintBytes { s with pos := 0 + n } (elementColor s (0 + n)) = bs
    by_cases h : off ≤ a ∧ a < off + bs.length
    · refine Or.inl ⟨bs[a - off]'(by omega), fun m hm => ?_⟩
      have := Memory.read_writeBytes_inside (wf_streamMem s hm 0 n) off (bs := bs) (i := a - off) (by omega)
      rwa [Nat.add_sub_cancel' h.1] at this
    · have e : ∀ m : Memory, m.wf = true →
          ((streamMem s 0 n m).writeBytes off bs).read a = (streamMem s 0 n m).read a :=
        fun m hm => Memory.read_writeBytes_outside (wf_streamMem s hm 0 n) (by omega)
      rcases ih with ⟨v, hv⟩ | hv
      · exact Or.inl ⟨v, fun m hm => by rw [e m hm, hv m hm]⟩
      · exact Or.inr fun m hm => by rw [e m hm, hv m hm]

/-- A passed check leaves room for every element of the stream (R47). -/
theorem paintFits_of_check {s : State} (hop : elementPlace s.op ≠ none) (hcheck : operationCheck s = none)
    {p : Nat} (hp : p < elementCount s.op s.inLen) (c : Rgb) :
    paintOffset { s with pos := p } + (paintBytes { s with pos := p } c).length ≤ s.outCap := by
  have hcases : s.op = 0 ∨ s.op = 1 ∨ s.op = 2 ∨ s.op = 3 := by
    generalize s.op = op
    revert op
    decide
  unfold operationCheck at hcheck
  unfold elementCount at hp
  rcases hcases with h | h | h | h
  · rw [h] at hcheck hp
    have hl : elementLength 0 = 2 := rfl
    rw [hl] at hp
    have hpass := hsldecCheck_eq_none.1 hcheck
    simp only [paintOffset, paintBytes, h, if_neg (by decide : ¬ (0 : BitVec 2) = 2), pixelBytes_length]
    omega
  · rw [h] at hcheck hp
    have hl : elementLength 1 = 1 := rfl
    rw [hl] at hp
    have hpass := rgbdecCheck_eq_none.1 hcheck
    simp only [paintOffset, paintBytes, h, if_neg (by decide : ¬ (1 : BitVec 2) = 2), pixelBytes_length]
    omega
  · rw [h] at hcheck hp
    have hl : elementLength 2 = 2 := rfl
    rw [hl] at hp
    have hpass := (segmapCheck_eq_none.1 hcheck).2 p hp
    rw [segHi_eq] at hpass
    simp only [paintOffset, paintBytes, h, if_true, fillBytes_length]
    exact hpass
  · rw [h] at hop
    exact absurd rfl hop

/-- A running operation that has passed its checks on truthful views. -/
structure State.Sound (s : State) : Prop where
  truthful : s.Truthful
  ready : s.lutReady = true
  running : s.busy = true
  form : elementPlace s.op ≠ none
  check : operationCheck s = none

/-- One element step of a sound operation (R91, R102, R117). -/
theorem elementStep_of_sound {s : State} (h : s.Sound) (hp : s.pos < elementCount s.op s.inLen) :
    elementStep s = .next (paintedState (elementColor s s.pos) s) := by
  obtain ⟨p, hform⟩ := Option.ne_none_iff_exists'.1 h.form
  rw [elementStep_eq_paint ⟨h.ready, h.running, hform, hp⟩ h.truthful.inSize]
  have hc := paintFits_of_check h.form h.check hp (elementColor s s.pos)
  exact paint_of_fits hc (Nat.le_trans hc h.truthful.outSize)

theorem sound_paintedState {s : State} (h : s.Sound) (c : Rgb) : (paintedState c s).Sound :=
  ⟨⟨h.truthful.inSize, h.truthful.outSize⟩, h.ready, h.running, h.form, h.check⟩

/-- The element steps of a sound operation paint the stream and advance `POS`. -/
theorem runElements_of_sound {s : State} (h : s.Sound) {k : Nat}
    (hk : s.pos + k ≤ elementCount s.op s.inLen) :
    runElements k s = .next { setOut (streamMem s s.pos k s.outView.mem) s with pos := s.pos + k } := by
  induction k generalizing s with
  | zero => rfl
  | succ k ih =>
    rw [runElements, elementStep_of_sound h (by omega), andThen_next,
      ih (sound_paintedState h _) (by simp only [paintedState, advancePos_pos, setOut_pos, advancePos_op, setOut_op, advancePos_inLen, setOut_inLen]; omega)]
    have e := streamMem_congr (s := s) (s' := paintedState (elementColor s s.pos) s) rfl rfl
      (fun _ => rfl) (s.pos + 1) k (paintedState (elementColor s s.pos) s).outView.mem
    have hpos : (paintedState (elementColor s s.pos) s).pos = s.pos + 1 := rfl
    rw [hpos, e, show s.pos + 1 + k = s.pos + (k + 1) by omega]
    rfl

/-- A sound operation runs to its end (R90, R100, R110, R141). -/
theorem runToEnd_of_sound {s : State} (h : s.Sound) (hp : s.pos ≤ elementCount s.op s.inLen) :
    runToEnd s = .next (endOp .ok
      { setOut (streamMem s s.pos (elementCount s.op s.inLen - s.pos) s.outView.mem) s with
        pos := elementCount s.op s.inLen }) := by
  rw [runToEnd, runElements_of_sound h (by omega), andThen_next, Nat.add_sub_cancel' hp]

/-! ### What writing elements leaves alone -/

/-- `t` is `s` after some elements: only `OUT` below `OUT_CAP` and `POS` differ (R27, R47). -/
structure Painted (s t : State) : Prop where
  frame : t = { setOut t.outView.mem s with pos := t.pos }
  view : s.outView.wf = true → t.outView.wf = true
  beyond : s.outView.mem.wf = true → t.outView.mem.wf = true ∧
    ∀ a, s.outCap ≤ a ∨ s.outView.size ≤ a → t.outByte a = s.outByte a

theorem Painted.refl (s : State) : Painted s s := ⟨rfl, id, fun h => ⟨h, fun _ _ => rfl⟩⟩

theorem Painted.trans {s t u : State} (h : Painted s t) (h' : Painted t u) : Painted s u := by
  refine ⟨?_, fun hv => h'.view (h.view hv), fun hm => ?_⟩
  · have e := h'.frame
    rw [h.frame] at e
    exact e
  · obtain ⟨hw, hb⟩ := h.beyond hm
    obtain ⟨hw', hb'⟩ := h'.beyond hw
    have hcap : t.outCap = s.outCap := by rw [h.frame]; rfl
    have hsize : t.outView.size = s.outView.size := by rw [h.frame]; rfl
    exact ⟨hw', fun a ha => by rw [hb' a (by omega), hb a ha]⟩

theorem painted_of_paint {c : Rgb} {s t : State} (h : paint c s = .next t) :
    Painted s t ∧ t.pos = s.pos + 1 := by
  rcases paint_cases c s with ⟨hfit, e⟩ | e
  · rw [e] at h
    cases h
    refine ⟨⟨rfl, fun hv => ?_, fun hm => ⟨Memory.wf_writeBytes _ _ hm, fun a ha => ?_⟩⟩, rfl⟩
    · exact View.wf_writeBytes _ _ hv (hfit.imp id And.right)
    · show (s.outView.mem.writeBytes _ _).read a = s.outView.mem.read a
      rcases hfit with hnil | hfit
      · rw [hnil]; rfl
      · exact Memory.read_writeBytes_outside hm (by omega)
  · rw [e] at h
    cases h

theorem painted_of_elementStep {s t : State} (h : elementStep s = .next t) :
    Painted s t ∧ t.pos = s.pos + 1 ∧ s.pos < elementCount s.op s.inLen := by
  obtain ⟨p, c, hat, hp⟩ := elementStep_eq_next h
  exact ⟨(painted_of_paint hp).1, (painted_of_paint hp).2, hat.left⟩

theorem painted_of_runElements {k : Nat} {s t : State} (h : runElements k s = .next t) :
    Painted s t ∧ t.pos = s.pos + k := by
  induction k generalizing s with
  | zero => cases h; exact ⟨Painted.refl _, rfl⟩
  | succ k ih =>
    obtain ⟨u, hu, ht⟩ := andThen_eq_next.1 h
    have h1 := painted_of_elementStep hu
    have h2 := ih ht
    exact ⟨h1.1.trans h2.1, by omega⟩

/-! ### Operations -/

/-- The start of an operation that answers a next state (R140). -/
theorem beginOp_eq_next {op : BitVec 2} {s t : State} :
    beginOp op s = .next t ↔ s.CanStart ∧ t = started op s := by
  unfold beginOp
  constructor
  · intro h
    split at h
    · cases h
    split at h
    · cases h
    split at h
    · cases h
    · simp_all only [Bool.not_eq_false, Bool.not_eq_true, Bool.and_eq_true]
      cases h
      rename_i hw
      exact ⟨⟨by assumption, by assumption, hw.1, hw.2⟩, rfl⟩
  · rintro ⟨⟨h1, h2, h3, h4⟩, rfl⟩
    simp [h1, h2, h3, h4]

/-- Everything an operation that answers a next state did: it started, and then either a check raised a
fault kind (R134), or it was left running (element level), or it ran to its end (invocation level). -/
theorem runOperation_eq_next {op : BitVec 2} {check : State → Option Result} {s t : State}
    (h : runOperation op check s = .next t) :
    s.CanStart ∧
      ((∃ k, check (started op s) = some k ∧ t = afterOperation s op 0 k s.outView.mem) ∨
       (check (started op s) = none ∧ s.hw.level = .element ∧ t = started op s) ∨
       (check (started op s) = none ∧ s.hw.level = .invocation ∧
          ∃ u, runElements (elementCount op s.inLen) (started op s) = .next u ∧ t = endOp .ok u)) := by
  obtain ⟨b, hb, ht⟩ := andThen_eq_next.1 h
  obtain ⟨hcan, rfl⟩ := beginOp_eq_next.1 hb
  refine ⟨hcan, ?_⟩
  split at ht
  · next k hk =>
    cases ht
    exact Or.inl ⟨k, hk, rfl⟩
  · next hk =>
    unfold proceed at ht
    split at ht
    · next hl =>
      obtain ⟨u, hu, hu'⟩ := andThen_eq_next.1 ht
      cases hu'
      exact Or.inr (Or.inr ⟨hk, hl, u, hu, rfl⟩)
    · next hl =>
      cases ht
      exact Or.inr (Or.inl ⟨hk, hl, rfl⟩)

/-- An operation that can start and fails a check (R134). -/
theorem runOperation_of_check {op : BitVec 2} {check : State → Option Result} {s : State} {k : Result}
    (hcan : s.CanStart) (hk : check (started op s) = some k) :
    runOperation op check s = .next (afterOperation s op 0 k s.outView.mem) := by
  rw [runOperation, beginOp_eq_next.2 ⟨hcan, rfl⟩, andThen_next]
  simp only [hk]
  rfl

/-- The started state of an operation whose check passed is sound on truthful views. -/
theorem sound_started {op : BitVec 2} {s : State} (hcan : s.CanStart) (htr : s.Truthful)
    (hop : elementPlace op ≠ none) (hk : operationCheck (started op s) = none) : (started op s).Sound :=
  ⟨⟨htr.inSize, htr.outSize⟩, hcan.ready, rfl, hop, hk⟩

/-- An operation at the invocation level on truthful views runs its whole stream (R37, R90, R100, R110). -/
theorem runOperation_of_pass {op : BitVec 2} {check : State → Option Result} {s : State}
    (hcan : s.CanStart) (htr : s.Truthful) (hlevel : s.hw.level = .invocation) (hop : elementPlace op ≠ none)
    (hk : check (started op s) = none) (hk' : operationCheck (started op s) = none) :
    runOperation op check s = .next (afterOperation s op (elementCount op s.inLen) .ok
      (streamMem (started op s) 0 (elementCount op s.inLen) s.outView.mem)) := by
  rw [runOperation, beginOp_eq_next.2 ⟨hcan, rfl⟩, andThen_next]
  simp only [hk]
  have hl : (started op s).hw.level = .invocation := hlevel
  simp only [proceed, hl]
  rw [runToEnd_of_sound (sound_started hcan htr hop hk') (Nat.zero_le _)]
  rfl

/-- An operation at the element level that passes its check is left running (R91). -/
theorem runOperation_of_element {op : BitVec 2} {check : State → Option Result} {s : State}
    (hcan : s.CanStart) (hlevel : s.hw.level = .element) (hk : check (started op s) = none) :
    runOperation op check s = .next (started op s) := by
  rw [runOperation, beginOp_eq_next.2 ⟨hcan, rfl⟩, andThen_next]
  simp only [hk]
  have hl : (started op s).hw.level = .element := hlevel
  simp only [proceed, hl]

/-! ### Instructions -/

/-- The code of an operation (R52). -/
def opcode : Instr → Option (BitVec 2)
  | .hsldec => some 0
  | .rgbdec => some 1
  | .segmap => some 2
  | .pxDark _ _ => none
  | .pxLight _ _ => none
  | .pxRgb332 _ _ _ => none
  | .buildHue => none
  | .buildPack => none

/-- The operations are one shared operation with the checks of R138. -/
theorem exec_of_opcode {i : Instr} {op : BitVec 2} (h : opcode i = some op) (s : State) :
    ∃ check, exec i s = runOperation op check s ∧ elementPlace op ≠ none ∧
      ∀ t : State, check (started op t) = operationCheck (started op t) := by
  cases i <;> simp only [opcode, Option.some.injEq, reduceCtorEq] at h
  all_goals subst h
  · exact ⟨hsldecCheck, rfl, by decide, fun _ => rfl⟩
  · exact ⟨rgbdecCheck, rfl, by decide, fun _ => rfl⟩
  · exact ⟨segmapCheck, rfl, by decide, fun _ => rfl⟩

/-- Everything an instruction that answers a next state can do: an operation (by its code), one element
painted, or a table built. -/
theorem exec_eq_next {i : Instr} {s t : State} (h : exec i s = .next t) :
    (∃ op check, opcode i = some op ∧ runOperation op check s = .next t ∧ elementPlace op ≠ none ∧
        ∀ t : State, check (started op t) = operationCheck (started op t)) ∨
    (∃ p c, i.place = p ∧ s.AtElement p ∧ paint c s = .next t) ∨
    (i = .buildHue ∧ (t = s ∨ s.hueBuilt = false ∧
        t = { s with hueLut := hueTable s.hw.wheel, hueBuilt := true, lutReady := s.packBuilt })) ∨
    (i = .buildPack ∧ (t = s ∨ s.packBuilt = false ∧
        t = { s with packLut := packTable, packBuilt := true, lutReady := s.hueBuilt })) := by
  cases i with
  | hsldec => exact Or.inl ⟨0, hsldecCheck, rfl, h, by decide, fun _ => rfl⟩
  | rgbdec => exact Or.inl ⟨1, rgbdecCheck, rfl, h, by decide, fun _ => rfl⟩
  | segmap => exact Or.inl ⟨2, segmapCheck, rfl, h, by decide, fun _ => rfl⟩
  | pxDark hue mag =>
    have := runForm_eq_next h
    exact Or.inr (Or.inl ⟨_, _, rfl, this.1, this.2⟩)
  | pxLight hue mag =>
    have := runForm_eq_next h
    exact Or.inr (Or.inl ⟨_, _, rfl, this.1, this.2⟩)
  | pxRgb332 r3 g3 b2 =>
    have := runForm_eq_next h
    exact Or.inr (Or.inl ⟨_, _, rfl, this.1, this.2⟩)
  | buildHue =>
    refine Or.inr (Or.inr (Or.inl ⟨rfl, ?_⟩))
    simp only [exec, execBuildHue] at h
    split at h
    · cases h; exact Or.inl rfl
    · next hb => cases h; exact Or.inr ⟨by simpa using hb, rfl⟩
  | buildPack =>
    refine Or.inr (Or.inr (Or.inr ⟨rfl, ?_⟩))
    simp only [exec, execBuildPack] at h
    split at h
    · cases h; exact Or.inl rfl
    · next hb => cases h; exact Or.inr ⟨by simpa using hb, rfl⟩

/-- Only tables (builds), registers of the running operation and bytes of `OUT` below `OUT_CAP` differ after
an instruction (R27, R47). -/
structure Executed (i : Instr) (s t : State) : Prop where
  frame : t = { s with
    hueLut := t.hueLut, hueBuilt := t.hueBuilt, packLut := t.packLut, packBuilt := t.packBuilt
    lutReady := t.lutReady, op := t.op, pos := t.pos, result := t.result, done := t.done, busy := t.busy
    outView := { s.outView with mem := t.outView.mem }, outStart := t.outStart }
  hue : i ≠ .buildHue → t.hueLut = s.hueLut ∧ t.hueBuilt = s.hueBuilt
  pack : i ≠ .buildPack → t.packLut = s.packLut ∧ t.packBuilt = s.packBuilt
  ready : i.place ≠ .builder → t.lutReady = s.lutReady
  view : s.outView.wf = true → t.outView.wf = true
  beyond : s.outView.mem.wf = true → ∀ a, s.outCap ≤ a → t.outByte a = s.outByte a

theorem executed_of_painted {i : Instr} {s t : State} (h : Painted s t) : Executed i s t := by
  have hf := h.frame
  refine ⟨?_, fun _ => ?_, fun _ => ?_, fun _ => ?_, h.view, fun hm a ha => (h.beyond hm).2 a (Or.inl ha)⟩
  all_goals rw [hf]
  all_goals first | rfl | exact ⟨rfl, rfl⟩

/-- What every instruction that answers a next state leaves alone. -/
theorem executed_of_exec {i : Instr} {s t : State} (h : exec i s = .next t) : Executed i s t := by
  rcases exec_eq_next h with
    ⟨op, check, -, hrun, -, -⟩ | ⟨p, c, -, -, hpaint⟩ | ⟨rfl, rfl | ⟨-, rfl⟩⟩ | ⟨rfl, rfl | ⟨-, rfl⟩⟩
  · rcases runOperation_eq_next hrun with ⟨-, ⟨k, -, rfl⟩ | ⟨-, -, rfl⟩ | ⟨-, -, u, hu, rfl⟩⟩
    · exact ⟨rfl, fun _ => ⟨rfl, rfl⟩, fun _ => ⟨rfl, rfl⟩, fun _ => rfl, id, fun _ _ _ => rfl⟩
    · exact ⟨rfl, fun _ => ⟨rfl, rfl⟩, fun _ => ⟨rfl, rfl⟩, fun _ => rfl, id, fun _ _ _ => rfl⟩
    · have h' := executed_of_painted (i := i) (painted_of_runElements hu).1
      refine ⟨?_, h'.hue, h'.pack, h'.ready, h'.view, h'.beyond⟩
      conv => lhs; rw [h'.frame]
      rfl
  · exact executed_of_painted (painted_of_paint hpaint).1
  · exact ⟨rfl, fun _ => ⟨rfl, rfl⟩, fun _ => ⟨rfl, rfl⟩, fun _ => rfl, id, fun _ _ _ => rfl⟩
  · exact ⟨rfl, fun h => absurd rfl h, fun _ => ⟨rfl, rfl⟩, fun h => absurd rfl h, id, fun _ _ _ => rfl⟩
  · exact ⟨rfl, fun _ => ⟨rfl, rfl⟩, fun _ => ⟨rfl, rfl⟩, fun _ => rfl, id, fun _ _ _ => rfl⟩
  · exact ⟨rfl, fun _ => ⟨rfl, rfl⟩, fun h => absurd rfl h, fun h => absurd rfl h, id, fun _ _ _ => rfl⟩

/-! ### Steps -/

/-- Everything a step of the CLM that answers a next state can do, by its phase (R143). -/
theorem clmStep_eq_next {s t : State} (h : clmStep s = .next t) :
    (s.busy = true ∧ s.pos < elementCount s.op s.inLen ∧ elementStep s = .next t) ∨
    (s.busy = true ∧ elementCount s.op s.inLen ≤ s.pos ∧ t = endOp .ok s) ∨
    (s.busy = false ∧ s.lutReady = true ∧ t = s) ∨
    (s.busy = false ∧ s.lutReady = false ∧ exec (nextBuild s) s = .next t) := by
  unfold clmStep at h
  split at h
  · next hb =>
    unfold runningStep at h
    split at h
    · next hp => exact Or.inl ⟨hb, hp, h⟩
    · next hp => cases h; exact Or.inr (Or.inl ⟨hb, Nat.le_of_not_lt hp, rfl⟩)
  · next hb =>
    split at h
    · next hl => cases h; exact Or.inr (Or.inr (Or.inl ⟨by simpa using hb, hl, rfl⟩))
    · next hl => exact Or.inr (Or.inr (Or.inr ⟨by simpa using hb, by simpa using hl, h⟩))

/-- Everything a step can do: the CLM moves (with nothing, a held action, or a reset not yet due before it),
a reset is taken, or the host acts. -/
theorem step_cases (s : State) :
    (∃ rest, (s.host = [] ∧ rest = [] ∨ s.busy = true ∧ rest = s.host ∨
        ∃ k tail, s.host = .reset (k + 1) :: tail ∧ rest = .reset k :: tail) ∧
      step s = clmStep { s with host := rest }) ∨
    (∃ rest, s.host = .reset 0 :: rest ∧ step s = .next (resetStep { s with host := rest })) ∨
    (∃ a rest, s.host = a :: rest ∧ s.busy = false ∧ (∀ k, a ≠ .reset k) ∧
      step s = hostStep a { s with host := rest }) := by
  unfold step sequencerStep
  split
  · next h => exact Or.inl ⟨[], Or.inl ⟨h, rfl⟩, by rw [← h]⟩
  · next rest h => exact Or.inr (Or.inl ⟨rest, h, rfl⟩)
  · next k rest h => exact Or.inl ⟨.reset k :: rest, Or.inr (Or.inr ⟨k, rest, h, rfl⟩), rfl⟩
  · next a rest h1 h2 h3 =>
    by_cases hb : s.busy
    · exact Or.inl ⟨s.host, Or.inr (Or.inl ⟨hb, rfl⟩), by rw [if_pos hb]⟩
    · refine Or.inr (Or.inr ⟨a, rest, h3, by simpa using hb, ?_, by rw [if_neg hb]⟩)
      intro k hk
      cases k with
      | zero => exact h1 hk
      | succ k => exact h2 k hk

/-- While an operation runs and no reset heads the list, the step is the CLM's (R156). -/
theorem step_of_busy {s : State} (hb : s.busy = true) (hh : ∀ k tail, s.host ≠ .reset k :: tail) :
    step s = clmStep s := by
  rcases step_cases s with ⟨rest, ⟨h1, rfl⟩ | ⟨-, rfl⟩ | ⟨k, tail, h, -⟩, e⟩ | ⟨rest, h, -⟩ | ⟨a, rest, -, hb', -⟩
  · rw [e, ← h1]
  · exact e
  · exact absurd h (hh _ _)
  · exact absurd h (hh _ _)
  · rw [hb] at hb'; cases hb'

/-- With no operation running, the head of the list acts. -/
theorem step_of_host {s : State} {a : HostAction} {rest : List HostAction} (hb : s.busy = false)
    (hh : s.host = a :: rest) (ha : ∀ k, a ≠ .reset k) : step s = hostStep a { s with host := rest } := by
  rcases step_cases s with
    ⟨r, ⟨h, rfl⟩ | ⟨h, rfl⟩ | ⟨k, tail, h, -⟩, e⟩ | ⟨r, h, e⟩ | ⟨a', r, h, hb', hr', e⟩
  · rw [hh] at h; cases h
  · rw [hb] at h; cases h
  · rw [hh] at h; cases h; exact absurd rfl (ha _)
  · rw [hh] at h; cases h; exact absurd rfl (ha _)
  · rw [hh] at h; cases h; exact e

/-- A step with a due reset. -/
theorem step_of_reset {s : State} {rest : List HostAction} (hh : s.host = .reset 0 :: rest) :
    step s = .next (resetStep { s with host := rest }) := by
  simp only [step, sequencerStep, hh]

/-- The view of an invocation's input is canonical and holds the input (R63). -/
theorem viewOf_wf (bs : List Byte) : (viewOf bs).wf = true :=
  View.wf_writeBytes (v := ⟨bs.length, []⟩) 0 bs rfl (Or.inr (by simp))

theorem viewOf_read {bs : List Byte} {i : Nat} (hi : i < bs.length) : (viewOf bs).mem.read i = bs[i] := by
  have := Memory.read_writeBytes_inside (m := []) rfl 0 hi
  rwa [Nat.zero_add] at this

/-- A command byte decodes to an operation (R52). -/
theorem place_of_decode_command {b : Byte} {i : Instr} {rest : List Byte}
    (h : decode .command [b] = .ok (i, rest)) : i.place = .command := by
  simp only [decode] at h
  split at h
  · next j hj =>
    simp only [decodeCommand] at hj
    cases h
    split at hj <;> cases hj <;> rfl
  · cases h

/-- Everything a host action that answers a next state does, the register reads and writes among it
(R21, R27). -/
theorem hostStep_eq_next {a : HostAction} {s t : State} (h : hostStep a s = .next t) :
    hostActionFits s a = true ∧
    ((∃ v i rest, a = .write .cmd v ∧ decode .command [BitVec.ofNat 8 v] = .ok (i, rest) ∧
        exec i s = .next t) ∨
      (∃ v, a = .write .inLen v ∧ t = { s with inLen := v, inLenWritten := true }) ∨
      (∃ v, a = .write .outCap v ∧ t = { s with outCap := v, outCapWritten := true }) ∨
      (∃ r, a = .read r ∧ t = { s with
        readData := readReg r s, draws := if r = .cmd then s.draws + 1 else s.draws }) ∨
      (∃ v, a = .lendIn v ∧ t = { s with inView := v }) ∨
      (∃ v, a = .lendOut v ∧ t = { s with outView := v }) ∨
      (∃ o b, a = .storeIn o b ∧ t = { s with inView := { s.inView with mem := s.inView.mem.write o b } }) ∨
      (∃ o b, a = .storeOut o b ∧ t = setOut (s.outView.mem.write o b) s) ∨
      (∃ o, a = .loadIn o ∧ t = { s with readData := (s.inByte o).toNat }) ∨
      (∃ o, a = .loadOut o ∧ t = { s with readData := (s.outByte o).toNat }) ∨
      (a = .wait ∧ clmStep s = .next t) ∨
      (((∃ k, a = .reset k) ∨ ∃ v, a = .write .status v) ∧ t = s)) := by
  unfold hostStep at h
  split at h
  · cases h
  · next hf =>
    refine ⟨by simpa using hf, ?_⟩
    cases a with
    | write r v =>
      cases r with
      | cmd =>
        simp only [registerWrite, commandWrite] at h
        split at h
        · next hd => exact Or.inl ⟨v, _, _, rfl, hd, h⟩
        · cases h
      | inLen => cases h; simp
      | outCap => cases h; simp
      | status => cases h; simp
    | read r => cases h; cases r <;> simp
    | wait => simpa using h
    | lendIn v => cases h; simp
    | lendOut v => cases h; simp
    | storeIn o b => cases h; simp
    | storeOut o b => cases h; simp [setOut]
    | loadIn o => cases h; simp [State.inByte]
    | loadOut o => cases h; simp [State.outByte]
    | reset k => cases h; simp

/-! ### Reset -/

/-- Everything `resetByte` can be (R152). -/
theorem resetByte_cases (s : State) (final : Memory) (a : Nat) :
    resetByte s final a = s.outStart.read a ∨ resetByte s final a = s.outView.mem.read a ∨
      resetByte s final a = final.read a := by
  unfold resetByte
  split
  · exact Or.inl rfl
  · exact Or.inr (Or.inl rfl)
  · exact Or.inr (Or.inr rfl)

/-- Writes at a list of offsets inside a view: the canonical form is kept, and a byte is as before or, at a
listed offset, the one written. -/
theorem foldl_write_spec (v : View) (f : Nat → Byte) (l : List Nat) (m : Memory) (hm : m.wf = true)
    (hl : ∀ a ∈ l, a < v.size) :
    (l.foldl (fun m a => m.write a (f a)) m).wf = true ∧
    (View.wf { v with mem := m } = true →
      View.wf { v with mem := l.foldl (fun m a => m.write a (f a)) m } = true) ∧
    ∀ a, (l.foldl (fun m a => m.write a (f a)) m).read a = m.read a ∨
      a ∈ l ∧ (l.foldl (fun m a => m.write a (f a)) m).read a = f a := by
  induction l generalizing m with
  | nil => exact ⟨hm, id, fun a => Or.inl rfl⟩
  | cons x l ih =>
    obtain ⟨h1, h2, h3⟩ := ih (m.write x (f x)) (Memory.wf_write _ _ hm) fun a ha => hl a (by simp [ha])
    refine ⟨h1, fun hv => h2 (View.wf_write (v := { v with mem := m }) x (f x) hv (hl x (by simp))),
      fun a => ?_⟩
    rw [List.foldl_cons]
    rcases h3 a with h | ⟨hmem, h⟩
    · rw [Memory.read_write hm] at h
      by_cases hax : a = x
      · exact Or.inr ⟨by simp [hax], by rw [h, if_pos hax, hax]⟩
      · exact Or.inl (by rw [h, if_neg hax])
    · exact Or.inr ⟨by simp [hmem], h⟩

/-- A byte of `OUT` after a reset during an operation is left as it was where the operation writes nothing,
and is one of three values anywhere (R152). -/
theorem scrambled_reads (s : State) (final : Memory) (h : s.outView.mem.wf = true) :
    (scrambled s final).wf = true ∧
    (s.outView.wf = true → View.wf { s.outView with mem := scrambled s final } = true) ∧
    ∀ a, (scrambled s final).read a = s.outView.mem.read a ∨
      a ∈ targetOffsets s ∧ ((scrambled s final).read a = s.outStart.read a ∨
        (scrambled s final).read a = final.read a) := by
  obtain ⟨h1, h2, h3⟩ := foldl_write_spec s.outView (resetByte s final) (targetOffsets s) s.outView.mem h
    fun a ha => by simpa using (List.mem_filter.1 ha).2
  refine ⟨h1, h2, fun a => ?_⟩
  rcases h3 a with e | ⟨ha, e⟩
  · exact Or.inl e
  · rw [scrambled, e]
    rcases resetByte_cases s final a with e' | e' | e'
    · exact Or.inr ⟨ha, Or.inl e'⟩
    · exact Or.inl e'
    · exact Or.inr ⟨ha, Or.inr e'⟩

/-! ### Runs -/

@[simp] theorem runSteps_zero (s : State) : runSteps 0 s = .next s := rfl

theorem runSteps_succ (k : Nat) (s : State) : runSteps (k + 1) s = andThen (step s) (runSteps k) := rfl

/-- Two runs in a row are one run. -/
theorem runSteps_add (j k : Nat) (s : State) :
    runSteps (j + k) s = andThen (runSteps j s) (runSteps k) := by
  induction j generalizing s with
  | zero => simp
  | succ j ih =>
    rw [Nat.add_right_comm, runSteps_succ, runSteps_succ]
    cases step s with
    | next t => exact ih t
    | fault f => rfl
    | refused r => rfl

theorem core_run_succ (M : Host.Core) (k : Nat) (s : M.State) :
    M.run (k + 1) s = (match M.step s with
      | .next s' => M.run k s'
      | .fault r => .fault r
      | .refused r => .refused r) := rfl

/-- The host's runs of the machine are runs of its steps. -/
theorem core_run_eq (k : Nat) (s : State) : Sys2Proof.core.run k s = runSteps k s := by
  induction k generalizing s with
  | zero => rfl
  | succ k ih =>
    refine (core_run_succ Sys2Proof.core k s).trans ?_
    have h : Sys2Proof.core.step s = step s := rfl
    rw [h, runSteps_succ]
    cases step s with
    | next t => exact ih t
    | fault f => rfl
    | refused r => rfl

end Sys2Proof.Machine
end

