-- ==== Sys2Proof/Laws/PerInstr.lean ====
section
/-! SUPPORT. Families of facts about every instruction as syntax, one lemma per constructor. -/

namespace Sys2Proof.Laws.EncodingLength

/-- How many bytes a word of a place has: a command byte (R51), an HSL16 element, an RGB332 element (R53);
a build has none (R62). -/
def wordLength : Place → Nat
  | .command => 1
  | .hslStream => 2
  | .rgbStream => 1
  | .builder => 0

/-- An instruction's encoding has the length of a word of its place. -/
def Statement (i : Instr) : Prop := (encode i).length = wordLength i.place

theorem hsldec : Statement .hsldec := rfl
theorem rgbdec : Statement .rgbdec := rfl
theorem segmap : Statement .segmap := rfl
theorem pxDark (hue : Byte) (mag : BitVec 7) : Statement (.pxDark hue mag) := rfl
theorem pxLight (hue : Byte) (mag : BitVec 7) : Statement (.pxLight hue mag) := rfl
theorem pxRgb332 (r3 g3 : BitVec 3) (b2 : BitVec 2) : Statement (.pxRgb332 r3 g3 b2) := rfl
theorem buildHue : Statement .buildHue := rfl
theorem buildPack : Statement .buildPack := rfl

end Sys2Proof.Laws.EncodingLength
end

