-- ==== Sys2Proof/Laws/Tables.lean ====
section
/-! SUPPORT. The small laws of the tables and of the opaque reset parameters. -/

namespace Sys2Proof.Machine

@[simp] theorem entry_tableOf (f : Byte → Rgb) (i : Byte) : entry (tableOf f) i = f i := by
  simp [entry, tableOf]

@[simp] theorem entry_hueTable (w : WheelPattern) (h : Byte) : entry (hueTable w) h = wheelColor w h :=
  entry_tableOf _ h

@[simp] theorem entry_packTable (p : Byte) : entry packTable p = packColor p := entry_tableOf _ p

/-- A channel of a wheel entry is that channel of its region (R72). -/
theorem wheelColor_channel (w : WheelPattern) (h : Byte) (c : Channel) :
    (wheelColor w h).channel c = regionChannel (w[hueRegion h]'(hueRegion_lt h)) (hueRem h) c := by
  cases c <;> rfl

/-- A channel of a shaded color depends on that channel of the base alone (R80). -/
theorem shade_channel (base : Rgb) (l : Byte) (c : Channel) :
    (shade base l).channel c =
      if l.toNat < 128 then darkChannel (base.channel c) l else lightChannel (base.channel c) l := by
  unfold shade
  split <;> cases c <;> rfl

end Sys2Proof.Machine
end

