-- ==== Sys2Proof/Tests/Slice0.lean ====
section
/-! SUPPORT. Tests of the model, one step each on small states, with the expected values taken from the spec
(40_lut_build.md tables T1 and T2, 95_test_vectors.md), and for every statement with hypotheses a witness
that meets them. -/

namespace Sys2Proof.Machine.Tests

/-! ### Helpers -/

/-- A table of descriptors from raw pairs; a pair that leaves its digit is refused and stands as empty. -/
def segTableOf (f : Nat → Byte × Byte) : SegTable :=
  ⟨((List.range 32).map fun k => (SegDesc.ofFields? (f k).1 (f k).2).getD default).toArray, by simp⟩

/-- Example table A of 95_test_vectors.md 2.6. -/
def tableA : SegTable := segTableOf fun k => if k = 31 then (155, 33) else (BitVec.ofNat 8 (5 * k), 5)

/-- Example table B of 95_test_vectors.md 2.6. -/
def tableB : SegTable :=
  segTableOf fun k => if k = 0 then (0, 4) else if k = 1 then (2, 4) else if k = 2 then (10, 0) else (0, 0)

/-- The spec's default parameters with an example table. -/
def params (t : SegTable) : Params := { Config.params with segTable := t }

/-- A ready machine with the arguments of an invocation written, and `OUT` holding the given bytes. -/
def bench (t : SegTable) (input : List Byte) (cap : Nat) (out : List Byte) : State :=
  { State.resetOf (params t) with
    inLen := input.length, inLenWritten := true, outCap := cap, outCapWritten := true
    inView := viewOf input, outView := viewOf out }

/-- The same machine with an operation running at its first element. -/
def running (t : SegTable) (op : BitVec 2) (input : List Byte) (cap : Nat) (out : List Byte) : State :=
  started op (bench t input cap out)

/-- The machine in its building phase. -/
def building : State := State.resetOf { params tableB with lutInit := .build }

/-- The result and the first bytes of `OUT` of a next state. -/
def report (n : Nat) : Out → Option (Result × List Byte)
  | .next s => some (s.result, (List.range n).map s.outByte)
  | .fault _ => none
  | .refused _ => none

/-! ### WellFormed refuses each ill-formed term -/

theorem test_wellFormed_refuses_element_as_command :
    (Instr.pxDark 1 2).wellFormedAt .command = false := by decide

theorem test_wellFormed_refuses_command_in_stream : Instr.hsldec.wellFormedAt .hslStream = false := by decide

theorem test_wellFormed_refuses_other_format : (Instr.pxRgb332 1 2 3).wellFormedAt .hslStream = false := by
  decide

theorem test_wellFormed_refuses_encoding_of_build : Instr.buildHue.encodable = false := by decide

/-- R17: 155 + 34 leaves the digit, 155 + 33 does not. -/
theorem test_wellFormed_refuses_segment_outside_digit :
    SegDesc.ofFields? 155 34 = none ∧ (SegDesc.ofFields? 155 33).isSome = true := by decide

/-- R72: one channel cannot be both full and zero. -/
theorem test_wellFormed_refuses_channel_full_and_zero :
    RegionPattern.ofFields? .red .red true = none := by decide

theorem test_host_refuses_ill_formed_actions :
    hostActionFits building (.write .cmd 256) = false ∧
    hostActionFits building (.write .inLen (2 ^ 32)) = false ∧
    hostActionFits building (.lendIn ⟨4, [(1, 0)]⟩) = false ∧
    hostActionFits building (.lendOut ⟨4, [(4, 1)]⟩) = false ∧
    hostActionFits building (.storeIn 0 1) = false ∧ hostActionFits building (.loadOut 0) = false := by decide

/-! ### Decoding: words written out bit by bit (R51 to R57) -/

/-- CMD8: `OP` in bits 1:0, bits 7:2 ignored (R51, R52); 3 is reserved (R58). -/
theorem test_decode_commands :
    decode .command [0b10101000] = .ok (.hsldec, []) ∧ decode .command [0b00000001] = .ok (.rgbdec, []) ∧
    decode .command [0b01010110] = .ok (.segmap, []) ∧ decode .command [0b00000011] = .error .reservedOp := by
  decide

/-- HSL16: hue, then mode in bit 7 and mag in bits 6:0 (R54 to R56). -/
theorem test_decode_hsl :
    decode .hslStream [0b10000001, 0b01111111, 5] = .ok (.pxDark 129 127, [5]) ∧
    decode .hslStream [0b00000010, 0b10000000] = .ok (.pxLight 2 0, []) := by decide

/-- RGB332: `rrrgggbb` (R57). -/
theorem test_decode_rgb332 :
    decode .rgbStream [0b10101110] = .ok (.pxRgb332 0b101 0b011 0b10, []) := by decide

theorem test_decode_refuses_short_words :
    decode .hslStream [7] = .error .truncated ∧ decode .rgbStream [] = .error .truncated ∧
    decode .builder [0] = .error .noEncoding := by decide

/-- Words numbered as the opcode table numbers them: hue in bits 15:8. -/
theorem test_decodeTableWord :
    decodeTableWord 8 0b00000010 = some .segmap ∧ decodeTableWord 16 0x5640 = some (.pxDark 0x56 0x40) ∧
    decodeTableWord 16 0xABC1 = some (.pxLight 0xAB 0x41) ∧ decodeTableWord 8 0xB7 = some (.pxRgb332 5 5 3) ∧
    decodeTableWord 0 0 = none := by decide

/-! ### Tables and the scaler (40_lut_build.md T1, T2; 95_test_vectors.md 2.1 to 2.3) -/

theorem test_wheel_samples :
    [0, 1, 42, 43, 85, 86, 100, 128].map (wheelColor Config.standardWheel) =
      [⟨255, 0, 0⟩, ⟨255, 4, 0⟩, ⟨255, 250, 0⟩, ⟨255, 255, 0⟩, ⟨5, 255, 0⟩, ⟨0, 255, 0⟩, ⟨0, 255, 85⟩,
        ⟨0, 255, 255⟩] ∧
    [170, 171, 213, 214, 255].map (wheelColor Config.standardWheel) =
      [⟨0, 5, 255⟩, ⟨0, 0, 255⟩, ⟨250, 0, 255⟩, ⟨255, 0, 255⟩, ⟨255, 0, 9⟩] := by decide

theorem test_pack_samples :
    [0x01, 0x04, 0x20, 0x25, 0x49, 0x6D, 0x92, 0xB6, 0xFF].map packColor =
      [⟨0, 0, 85⟩, ⟨0, 36, 0⟩, ⟨36, 0, 0⟩, ⟨36, 36, 85⟩, ⟨73, 73, 85⟩, ⟨109, 109, 85⟩, ⟨146, 146, 170⟩,
        ⟨182, 182, 170⟩, ⟨255, 255, 255⟩] := by decide

theorem test_shade_samples :
    [(255, 1), (127, 1), (255, 64), (250, 100), (127, 127)].map (fun x => darkChannel x.1 x.2) =
      [1, 0, 127, 195, 126] ∧
    [(0, 129), (200, 129), (100, 130), (5, 200), (13, 247), (9, 254), (126, 255), (127, 255)].map
      (fun x => lightChannel x.1 x.2) = [1, 200, 102, 145, 237, 251, 253, 254] ∧
    shade ⟨0, 255, 85⟩ 200 = ⟨143, 255, 180⟩ ∧ shade ⟨255, 0, 9⟩ 127 = ⟨253, 0, 8⟩ := by decide

/-! ### Instructions, one step each -/

/-- H10 of 95_test_vectors.md. -/
theorem test_hsldec_three_pixels :
    report 9 (exec .hsldec (bench tableB [0, 128, 86, 128, 171, 128] 9 [0, 0, 0, 0, 0, 0, 0, 0, 0])) =
      some (.ok, [255, 0, 0, 0, 255, 0, 0, 0, 255]) := by decide

/-- H13: the first pixel would fit and is not written. -/
theorem test_hsldec_too_small :
    report 5 (exec .hsldec (bench tableB [0, 128, 86, 128] 5 [9, 9, 9, 9, 9])) =
      some (.bufferTooSmall, [9, 9, 9, 9, 9]) := by decide

/-- G8: an odd length is fine, the byte beyond `3n` stays. -/
theorem test_rgbdec_two_pixels :
    report 7 (exec .rgbdec (bench tableB [0x49, 0x25] 7 [9, 9, 9, 9, 9, 9, 9])) =
      some (.ok, [73, 73, 85, 36, 36, 85, 9]) := by decide

/-- G9. -/
theorem test_rgbdec_too_small :
    report 8 (exec .rgbdec (bench tableB [1, 2, 3] 8 [9, 9, 9, 9, 9, 9, 9, 9])) =
      some (.bufferTooSmall, [9, 9, 9, 9, 9, 9, 9, 9]) := by decide

/-- S8: the later segment wins pixels 2 and 3. -/
theorem test_segmap_overlap :
    report 20 (exec .segmap (bench tableB [0, 128, 86, 128] 24 (List.replicate 24 7))) =
      some (.ok, [255, 0, 0, 255, 0, 0, 0, 255, 0, 0, 255, 0, 0, 255, 0, 0, 255, 0, 7, 7]) := by decide

/-- S12: the empty segment is still bounds-checked. -/
theorem test_segmap_empty_segment_out_of_bounds :
    report 3 (exec .segmap (bench tableB [0, 128, 86, 128, 171, 128] 29 (List.replicate 30 7))) =
      some (.outOfBounds, [7, 7, 7]) := by decide

/-- H7: `hsl(255,127)`. -/
theorem test_pxDark_writes_pixel :
    report 4 (exec (.pxDark 255 127) (running tableB 0 [255, 127] 3 [9, 9, 9, 9])) =
      some (.ok, [253, 0, 8, 9]) := by decide

/-- H8: `hsl(100,200)`. -/
theorem test_pxLight_writes_pixel :
    report 4 (exec (.pxLight 100 72) (running tableB 0 [100, 200] 3 [9, 9, 9, 9])) =
      some (.ok, [143, 255, 180, 9]) := by decide

/-- E6: the color of `hsl(0,255)` fills segment 0 of table A, five pixels. -/
theorem test_pxLight_fills_segment :
    report 16 (exec (.pxLight 0 127) (running tableA 2 [0, 255] 15 (List.replicate 16 7))) =
      some (.ok, [255, 253, 253, 255, 253, 253, 255, 253, 253, 255, 253, 253, 255, 253, 253, 7]) := by decide

/-- G6: byte 0xB6. -/
theorem test_pxRgb332_writes_pixel :
    report 3 (exec (.pxRgb332 5 5 2) (running tableB 1 [0xB6] 3 [9, 9, 9])) =
      some (.ok, [182, 182, 170]) := by decide

/-- The last entry of T1. -/
theorem test_buildHue_last_entry :
    (match exec .buildHue building with
     | .next s => some (entry s.hueLut 255, s.lutReady)
     | .fault _ => none
     | .refused _ => none) = some (⟨255, 0, 9⟩, false) := by decide

/-- Entry 0xAB of T2, as P4 of 95_test_vectors.md uses it. -/
theorem test_buildPack_entry :
    (match exec .buildPack building with
     | .next s => some (entry s.packLut 0xAB, s.packBuilt, s.lutReady)
     | .fault _ => none
     | .refused _ => none) = some (⟨182, 73, 255⟩, true, false) := by decide

/-! ### The host's side -/

/-- Reset (R28): `STATUS` reads 16 under `rom`, 0 under `build`. -/
theorem test_reset_status : statusByte State.reset = 0b00010000 ∧ statusByte building = 0 := by decide

/-- Register numbers of R21 and the notation of R64. -/
theorem test_notation :
    [0, 1, 2, 3, 4].map regOfNumber? = [some .cmd, some .inLen, some .outCap, some .status, none] ∧
    repeated 2 (hslElement 43 128) = [43, 128, 43, 128] ∧ darkElement 7 127 = [7, 127] ∧
    lightElement 7 127 = [7, 255] ∧ p332Element 5 2 3 = [0b10101011] := by decide

/-- The next step after placing a word runs it, from the reset state. -/
theorem test_fetch_command :
    report 0 (step (State.reset.withFetchWord 8 0x02)) = some (.ok, []) ∧
    report 0 (step (State.reset.withFetchWord 8 0x01)) = some (.ok, []) := by decide

theorem test_fetch_elements :
    report 3 (step (State.reset.withFetchWord 16 0x5640)) = some (.ok, [0, 127, 0]) ∧
    report 3 (step (State.reset.withFetchWord 8 0xFF)) = some (.ok, [255, 255, 255]) := by decide

/-! ### Witnesses: states and operands that meet the hypotheses of the statements

Each `witness_<Name>` meets all hypotheses of `Obligations.<Name>` together, a conjunct or more for each
clause, at boundary values. -/

theorem bench_canStart (t : SegTable) (input : List Byte) (cap : Nat) (out : List Byte) :
    (bench t input cap out).CanStart := ⟨rfl, rfl, rfl, rfl⟩

theorem bench_truthful (t : SegTable) (input : List Byte) {cap : Nat} {out : List Byte}
    (h : cap ≤ out.length) : (bench t input cap out).Truthful := ⟨Nat.le_refl _, h⟩

/-- The same machine at the element level. -/
def atElementLevel (s : State) : State := { s with hw := { s.hw with level := .element } }

/-- What an operation on a bench leaves when it ends with a result. -/
def ended (s : State) (op : BitVec 2) (pos : Nat) (k : Result) (out : Memory) : Out :=
  .next (afterOperation s op pos k out)

theorem witness_DecodeOfEncodeIsIdentity :
    (Instr.segmap.encodable = true ∧ Instr.segmap.wellFormedAt .command = true) ∧
    ((Instr.pxDark 255 127).encodable = true ∧ (Instr.pxDark 255 127).wellFormedAt .hslStream = true) ∧
    ((Instr.pxLight 0 0).encodable = true ∧ (Instr.pxLight 0 0).wellFormedAt .hslStream = true) ∧
    ((Instr.pxRgb332 7 0 3).encodable = true ∧ (Instr.pxRgb332 7 0 3).wellFormedAt .rgbStream = true) := by
  decide

theorem witness_EncodeOfDecodedElementIsIdentity :
    decode .hslStream [0, 127, 9] = .ok (.pxDark 0 127, [9]) ∧
    decode .hslStream [255, 128] = .ok (.pxLight 255 0, []) ∧
    decode .rgbStream [255] = .ok (.pxRgb332 7 7 3, []) := by decide

theorem witness_EveryStreamElementDecodes :
    (127 : Byte).toNat < 128 ∧ 128 ≤ (128 : Byte).toNat ∧ 128 ≤ (255 : Byte).toNat := by decide

theorem witness_CommandDecodesByLowBits :
    (252 : Byte).toNat % 4 = 0 ∧ (253 : Byte).toNat % 4 = 1 ∧ (254 : Byte).toNat % 4 = 2 ∧
    (255 : Byte).toNat % 4 = 3 := by decide

theorem witness_HueScalingFormulasAndRanges : (254 : Byte).toNat < (255 : Byte).toNat := by decide

theorem witness_WheelHasFullZeroAndThirdChannel :
    (⟨.red, .blue, false, by decide⟩ : RegionPattern) = Config.standardWheel[hueRegion 0]'(hueRegion_lt 0) ∧
    Channel.green ≠ Channel.red ∧ Channel.green ≠ Channel.blue := by decide

theorem witness_BitReplicationValues : 7 < 8 ∧ 3 < 4 := by decide

theorem witness_DarkChannelFormula : (127 : Byte).toNat < 128 := by decide

theorem witness_LightChannelFormula : 128 ≤ (128 : Byte).toNat ∧ 128 ≤ (255 : Byte).toNat := by decide

theorem witness_ShadeRisesWithLightness : (127 : Byte).toNat ≤ (128 : Byte).toNat := by decide

theorem witness_ShadeFallsShortByLessThanTwo : (127 : Byte).toNat < 128 ∧ 128 ≤ (128 : Byte).toNat := by decide

theorem witness_BuildHueFillsTable : building.hueBuilt = false := rfl

theorem witness_BuildPackFillsTable : building.packBuilt = false := rfl

theorem witness_SecondBuildChangesNothing : State.reset.hueBuilt = true ∧ State.reset.packBuilt = true :=
  ⟨rfl, rfl⟩

theorem witness_BuildPhaseReachesRomState : building.hw.lutInit = .build := rfl

/-- Room for exactly one pixel. -/
theorem witness_PxHslWritesPixel :
    let s := running tableB 0 [0, 128] 3 [9, 9, 9]
    s.outView.mem.wf = true ∧ s.AtElement .hslStream ∧ s.op = 0 ∧ 3 * s.pos + 3 ≤ s.outCap ∧
    3 * s.pos + 3 ≤ s.outView.size :=
  ⟨by decide, ⟨rfl, rfl, rfl, by decide⟩, rfl, by decide, by decide⟩

/-- Room for exactly segment 0 of table B. -/
theorem witness_PxHslFillsSegment :
    let s := running tableB 2 [0, 128] 12 (List.replicate 12 7)
    s.outView.mem.wf = true ∧ s.AtElement .hslStream ∧ s.op = 2 ∧
    segHi s.hw.segTable s.pos ≤ s.outCap ∧ segHi s.hw.segTable s.pos ≤ s.outView.size :=
  ⟨by decide, ⟨rfl, rfl, rfl, by decide⟩, rfl, by decide, by decide⟩

theorem witness_PxRgb332WritesPixel :
    let s := running tableB 1 [0xB6] 3 [9, 9, 9]
    s.outView.mem.wf = true ∧ s.AtElement .rgbStream ∧ 3 * s.pos + 3 ≤ s.outCap ∧
    3 * s.pos + 3 ≤ s.outView.size :=
  ⟨by decide, ⟨rfl, rfl, rfl, by decide⟩, by decide, by decide⟩

theorem witness_ElementOutsideStreamRefused :
    ((Instr.pxDark 0 0).place = .hslStream ∧ State.reset.lutReady = true ∧ State.reset.busy = false) ∧
    (let s := running tableB 1 [1] 3 [9, 9, 9]
     s.lutReady = true ∧ s.busy = true ∧ elementPlace s.op ≠ some (Instr.pxDark 0 0).place) ∧
    (let s := advancePos (running tableB 0 [0, 128] 3 [9, 9, 9])
     s.lutReady = true ∧ s.busy = true ∧ elementPlace s.op = some (Instr.pxDark 0 0).place ∧
     elementCount s.op s.inLen ≤ s.pos) := by decide

/-- One byte too few in `OUT_CAP`, or in the view, for a pixel and for segment 0 of table B. -/
theorem witness_PixelOutsideViewFaults :
    (let s := running tableB 0 [0, 128] 2 [9, 9, 9]
     s.AtElement (Instr.pxLight 0 0).place ∧ s.op ≠ 2 ∧ s.outCap < 3 * s.pos + 3) ∧
    (let s := running tableB 1 [1] 3 [9, 9]
     s.AtElement (Instr.pxRgb332 0 0 1).place ∧ s.op ≠ 2 ∧ s.outView.size < 3 * s.pos + 3) ∧
    (let s := running tableB 2 [0, 128] 11 (List.replicate 12 9)
     s.AtElement (Instr.pxLight 0 0).place ∧ s.op = 2 ∧ (segDesc s.hw.segTable s.pos).count ≠ 0 ∧
     s.outCap < segHi s.hw.segTable s.pos) ∧
    (let s := running tableB 2 [0, 128] 12 (List.replicate 11 9)
     s.AtElement (Instr.pxLight 0 0).place ∧ s.op = 2 ∧ (segDesc s.hw.segTable s.pos).count ≠ 0 ∧
     s.outView.size < segHi s.hw.segTable s.pos) :=
  ⟨⟨⟨rfl, rfl, rfl, by decide⟩, by decide, by decide⟩, ⟨⟨rfl, rfl, rfl, by decide⟩, by decide, by decide⟩,
    ⟨⟨rfl, rfl, rfl, by decide⟩, rfl, by decide, by decide⟩,
    ⟨⟨rfl, rfl, rfl, by decide⟩, rfl, by decide, by decide⟩⟩

/-- H12: capacity exactly `3n`. -/
theorem witness_HsldecDecodesEveryPair :
    let s := bench tableB [0, 128, 86, 128] 6 [9, 9, 9, 9, 9, 9]
    s.outView.mem.wf = true ∧ s.CanStart ∧ s.Truthful ∧ s.hw.level = .invocation ∧ s.inLen % 2 = 0 ∧
    3 * (s.inLen / 2) ≤ s.outCap :=
  ⟨by decide, bench_canStart _ _ _ _, bench_truthful _ _ (by decide), rfl, by decide, by decide⟩

theorem witness_RgbdecDecodesEveryByte :
    let s := bench tableB [0x49, 0x25] 6 [9, 9, 9, 9, 9, 9]
    s.outView.mem.wf = true ∧ s.CanStart ∧ s.Truthful ∧ s.hw.level = .invocation ∧ 3 * s.inLen ≤ s.outCap ∧
    s.packLut = packTable ∧ 1 < s.inLen ∧ s.rgbColor 1 = entry packTable 0x25 :=
  ⟨by decide, bench_canStart _ _ _ _, bench_truthful _ _ (by decide), rfl, by decide, rfl, by decide, by decide⟩

/-- S9: capacity exactly `seg_hi(1)`; byte 0 lies in segment 0 alone, byte 6 in both (the later one is the
last), byte 18 in none. -/
theorem witness_SegmapPaintsLastSegment :
    let s := bench tableB [0, 128, 86, 128] 18 (List.replicate 19 7)
    s.outView.mem.wf = true ∧ s.CanStart ∧ s.Truthful ∧ s.hw.level = .invocation ∧ s.inLen % 2 = 0 ∧
    (∀ k, k < s.inLen / 2 → segHi s.hw.segTable k ≤ s.outCap) ∧
    (∀ k, k < s.inLen / 2 → ¬ (segLo s.hw.segTable k ≤ 18 ∧ 18 < segHi s.hw.segTable k)) ∧
    ((0 < s.inLen / 2 ∧ InSegment s.hw.segTable 0 0) ∧
      ∀ k', 0 < k' → k' < s.inLen / 2 → ¬ InSegment s.hw.segTable k' 0) ∧
    ((1 < s.inLen / 2 ∧ InSegment s.hw.segTable 1 6) ∧
      ∀ k', 1 < k' → k' < s.inLen / 2 → ¬ InSegment s.hw.segTable k' 6) := by
  refine ⟨by decide, bench_canStart _ _ _ _, bench_truthful _ _ (by decide), rfl, by decide, by decide,
    by decide, ⟨⟨by decide, ⟨by decide, by decide⟩⟩, ?_⟩, ⟨⟨by decide, ⟨by decide, by decide⟩⟩, ?_⟩⟩
  · rintro k' h0 h ⟨h1, -⟩
    have h2 : k' < 2 := h
    obtain rfl : k' = 1 := by omega
    exact absurd h1 (by decide)
  · intro k' h0 h
    have h2 : k' < 2 := h
    omega

theorem witness_ElementLevelStartsOperation :
    let s := atElementLevel (bench tableB [0, 128, 86, 128] 18 (List.replicate 18 7))
    s.CanStart ∧ s.hw.level = .element ∧ s.inLen % 2 = 0 ∧ 3 * (s.inLen / 2) ≤ s.outCap ∧
    3 * s.inLen ≤ s.outCap ∧ (∀ k, k < s.inLen / 2 → segHi s.hw.segTable k ≤ s.outCap) :=
  ⟨⟨rfl, rfl, rfl, rfl⟩, rfl, by decide, by decide, by decide, by decide⟩

/-- H17, H13, G9, H17 again and S10, each one byte short of passing; then operations that end, and builds. -/
theorem witness_FaultMatrix :
    (let s := bench tableB [7] 3 []; s.CanStart ∧ s.inLen % 2 = 1) ∧
    (let s := bench tableB [0, 128, 86, 128] 5 []
     s.CanStart ∧ s.inLen % 2 = 0 ∧ s.outCap < 3 * (s.inLen / 2)) ∧
    (let s := bench tableB [1, 2, 3] 8 []; s.CanStart ∧ s.outCap < 3 * s.inLen) ∧
    (let s := bench tableB [0, 128, 86, 128] 17 []
     s.CanStart ∧ s.inLen % 2 = 0 ∧ ∃ k, k < s.inLen / 2 ∧ s.outCap < segHi s.hw.segTable k) ∧
    exec .hsldec (bench tableB [7] 3 []) = ended (bench tableB [7] 3 []) 0 0 .invalidLength [] ∧
    exec .rgbdec (bench tableB [1] 2 []) = ended (bench tableB [1] 2 []) 1 0 .bufferTooSmall [] ∧
    exec .segmap (bench tableB [7] 3 []) = ended (bench tableB [7] 3 []) 2 0 .invalidLength [] ∧
    exec .buildHue State.reset = .next State.reset ∧ exec .buildPack State.reset = .next State.reset :=
  ⟨⟨bench_canStart _ _ _ _, by decide⟩, ⟨bench_canStart _ _ _ _, by decide, by decide⟩,
    ⟨bench_canStart _ _ _ _, by decide⟩, ⟨bench_canStart _ _ _ _, by decide, 1, by decide, by decide⟩,
    rfl, rfl, rfl, rfl, rfl⟩

theorem witness_CommandRefusedUnlessItCanStart :
    Instr.hsldec.place = .command ∧ building.lutReady = false ∧
    (let s := running tableB 0 [] 0 []; s.lutReady = true ∧ s.busy = true) ∧
    (State.reset.lutReady = true ∧ State.reset.busy = false ∧
      (State.reset.inLenWritten && State.reset.outCapWritten) = false) := by decide

theorem witness_FaultKindLeavesOutputUntouched :
    let s := bench tableB [0, 128, 86, 128] 5 [9, 9, 9, 9, 9]
    let t := afterOperation s 0 0 .bufferTooSmall s.outView.mem
    Instr.hsldec.place = .command ∧ exec .hsldec s = .next t ∧ t.done = true ∧ t.result ≠ .ok :=
  ⟨rfl, rfl, rfl, by decide⟩

/-- The invariant holds of a bench whose lengths fit 32 bits and whose views are canonical. -/
theorem bench_inv (t : SegTable) (input : List Byte) (cap : Nat) (out : List Byte)
    (hi : input.length < 2 ^ 32) (hc : cap < 2 ^ 32) : (bench t input cap out).Inv :=
  { inMem := viewOf_wf _, outMem := viewOf_wf _, startMem := rfl, inLenFits := hi, outCapFits := hc
    posFits := Nat.two_pow_pos _, ready := rfl, hue := fun _ => rfl, pack := fun _ => rfl
    running := fun h => Bool.noConfusion (show false = true from h), idle := fun _ => rfl }

/-- G1: one pixel. -/
theorem witness_OperationIsIdempotent :
    let s := bench tableB [0xFF] 3 [9, 9, 9]
    Instr.rgbdec.place = .command ∧ s.hw.level = .invocation ∧ s.Inv ∧ s.Truthful ∧
    exec .rgbdec s = ended s 1 1 .ok [(0, 255), (1, 255), (2, 255)] :=
  ⟨rfl, rfl, bench_inv _ _ _ _ (by decide) (by decide), bench_truthful _ _ (by decide), rfl⟩

theorem witness_OperationIgnoresOldOutput :
    let s := bench tableB [0xFF] 3 [9, 9, 9, 9]
    Instr.rgbdec.place = .command ∧ s.hw.level = .invocation ∧ s.Truthful ∧ s.outView.mem.wf = true ∧
    Memory.wf [(3, 5)] = true ∧ exec .rgbdec s = ended s 1 1 .ok [(0, 255), (1, 255), (2, 255), (3, 9)] ∧
    exec .rgbdec (setOut [(3, 5)] s) = ended s 1 1 .ok [(0, 255), (1, 255), (2, 255), (3, 5)] :=
  ⟨rfl, rfl, bench_truthful _ _ (by decide), by decide, by decide, rfl, rfl⟩

theorem witness_SegmentsStayInTheirDigits : 31 / 32 ≠ 32 / 32 := by decide

/-- Two segments, a capacity of exactly one whole digit. -/
theorem witness_WholeDigitsSuffice :
    let s := bench tableB [0, 128, 86, 128] 564 (List.replicate 18 7)
    564 * ((s.inLen / 2 + 31) / 32) ≤ s.outCap ∧ (1 < s.inLen / 2) ∧
    ∃ t, exec .segmap s = .next t ∧ t.done = true := ⟨by decide, by decide, _, rfl, rfl⟩

theorem witness_InstructionsSpareArgumentsAndInput :
    exec .rgbdec (bench tableB [1] 2 []) = ended (bench tableB [1] 2 []) 1 0 .bufferTooSmall [] := rfl

theorem witness_OnlyBuildsWriteTables :
    Instr.rgbdec ≠ .buildHue ∧ Instr.rgbdec ≠ .buildPack ∧ Instr.rgbdec.place ≠ .builder ∧
    exec .rgbdec (bench tableB [1] 2 []) = ended (bench tableB [1] 2 []) 1 0 .bufferTooSmall [] :=
  ⟨by decide, by decide, by decide, rfl⟩

/-- The byte at `OUT_CAP` is not written. -/
theorem witness_WritesStayBelowCapacity :
    let s := bench tableB [0xFF] 3 [9, 9, 9, 9]
    s.outView.mem.wf = true ∧ s.outCap ≤ 3 ∧
    exec .rgbdec s = ended s 1 1 .ok [(0, 255), (1, 255), (2, 255), (3, 9)] := ⟨by decide, by decide, rfl⟩

theorem witness_StepRunsWrittenCommand :
    let s := { State.reset with host := [.write .cmd 254, .wait] }
    s.busy = false ∧ 254 < 256 ∧ s.host = .write .cmd 254 :: [.wait] ∧
    decode .command [BitVec.ofNat 8 254] = .ok (.segmap, []) ∧
    { s with host := [.write .cmd 255] }.host = .write .cmd 255 :: [] ∧ 255 < 256 ∧ 255 % 4 = 3 :=
  ⟨rfl, by decide, rfl, by decide, rfl, by decide, by decide⟩

theorem witness_StepRunsFetchedElement :
    let s := running tableB 0 [0, 128] 3 [9, 9, 9]
    s.busy = true ∧ s.pos < elementCount s.op s.inLen ∧ elementPlace s.op = some .hslStream ∧
    elementBytes s = some [0, 128] ∧ decode .hslStream [0, 128] = .ok (.pxLight 0 0, []) ∧ s.host = [] ∧
    { s with host := [.reset 1] }.host = .reset (0 + 1) :: [] := by decide

theorem witness_StepRunsNextBuild :
    (building.busy = false ∧ building.lutReady = false ∧ building.host = [] ∧ building.hueBuilt = false) ∧
    (let s := { building with hueBuilt := true }
     s.busy = false ∧ s.lutReady = false ∧ s.host = [] ∧ s.hueBuilt = true) := by decide

theorem witness_StepEndsOperationOrIdles :
    (let s := advancePos (running tableB 0 [0, 128] 3 [9, 9, 9])
     s.busy = true ∧ elementCount s.op s.inLen ≤ s.pos ∧ s.host = [] ∧
     { s with host := [.reset 1] }.host = .reset (0 + 1) :: []) ∧
    (State.reset.busy = false ∧ State.reset.lutReady = true ∧ State.reset.host = []) := by decide

/-- The widest value of each register, and each read. -/
theorem witness_RegisterAccess :
    let h (a : HostAction) : State := { State.reset with host := [a] }
    (∀ a, (h a).busy = false) ∧ 2 ^ 32 - 1 < 2 ^ State.reset.hw.addrW ∧ 255 < 256 ∧
    (h (.write .inLen (2 ^ 32 - 1))).host = .write .inLen (2 ^ 32 - 1) :: [] ∧
    (h (.write .outCap (2 ^ 32 - 1))).host = .write .outCap (2 ^ 32 - 1) :: [] ∧
    (h (.write .status 255)).host = .write .status 255 :: [] ∧
    (h (.read .inLen)).host = .read .inLen :: [] ∧ (h (.read .outCap)).host = .read .outCap :: [] ∧
    (h (.read .status)).host = .read .status :: [] ∧ (h (.read .cmd)).host = .read .cmd :: [] :=
  ⟨fun _ => rfl, by decide, by decide, rfl, rfl, rfl, rfl, rfl, rfl, rfl⟩

theorem witness_InvocationRunsItsOperation :
    let v : Invocation := ⟨2, [0, 128], 12⟩
    let s := { State.reset with host := invocationActions v }
    s.busy = false ∧ s.host = invocationActions v ∧ v.input.length < 2 ^ s.hw.addrW ∧
    v.cap < 2 ^ s.hw.addrW ∧ decode .command [BitVec.ofNat 8 v.op.toNat] = .ok (.segmap, []) :=
  ⟨rfl, rfl, by decide, by decide, by decide⟩

theorem witness_ResetLeavesViewsAndClearsStatus :
    (let s := { State.reset with host := [.reset 0, .wait] }
     s.busy = false ∧ s.host = .reset 0 :: [.wait] ∧ s.hw.lutInit = .rom) ∧
    (let s := { building with host := [.reset 0] }
     s.busy = false ∧ s.host = .reset 0 :: [] ∧ s.hw.lutInit = .build) :=
  ⟨⟨rfl, rfl, rfl⟩, ⟨rfl, rfl, rfl⟩⟩

/-- Byte 3 is the first a one-pixel decode cannot write; byte 18 is in no segment of the two; the first under
`rom`, the third under `build`. -/
theorem witness_ResetAbandonsOperation :
    (let s := { running tableB 0 [0, 128] 3 [9, 9, 9, 9] with host := [.reset 0] }
     s.outView.mem.wf = true ∧ s.busy = true ∧ s.host = .reset 0 :: [] ∧ s.op ≠ 2 ∧
     3 * elementCount s.op s.inLen ≤ 3 ∧ s.hw.lutInit = .rom) ∧
    (let s := { running tableB 2 [0, 128, 86, 128] 18 (List.replicate 19 7) with host := [.reset 0] }
     s.outView.mem.wf = true ∧ s.busy = true ∧ s.host = .reset 0 :: [] ∧ s.op = 2 ∧
     ∀ k, k < elementCount s.op s.inLen →
       ¬ (segLo s.hw.segTable k ≤ 18 ∧ 18 < segHi s.hw.segTable k)) ∧
    (let s := { started 0 building with host := [.reset 0] }
     s.outView.mem.wf = true ∧ s.busy = true ∧ s.host = .reset 0 :: [] ∧ s.hw.lutInit = .build) := by decide

theorem witness_StepKeepsParameters : step State.reset = .next State.reset := rfl

theorem witness_TablesNeverChangeOnceReady :
    let s := bench tableB [1] 2 []
    s.Inv ∧ s.lutReady = true ∧ step s = .next s :=
  ⟨bench_inv _ _ _ _ (by decide) (by decide), rfl, rfl⟩

/-- A command that ends in a fault, and a running element. -/
theorem witness_StepKeepsInvariant :
    let s := { bench tableB [1] 2 [] with host := [.write .cmd 1] }
    s.Inv ∧ step s = ended { s with host := [] } 1 0 .bufferTooSmall [] :=
  ⟨{ bench_inv tableB [1] 2 [] (by decide) (by decide) with }, rfl⟩

theorem witness_TruthfulStepNeverFaults :
    let s := bench tableB [0, 128] 3 [9, 9, 9]
    s.Inv ∧ s.Truthful := ⟨bench_inv _ _ _ _ (by decide) (by decide), bench_truthful _ _ (by decide)⟩

/-- The invariant holds of a running operation that has passed its checks. -/
theorem running_inv : (running tableB 0 [0, 128] 3 [9, 9, 9]).Inv :=
  { bench_inv tableB [0, 128] 3 [9, 9, 9] (by decide) (by decide) with
    startMem := View.wf_mem (viewOf_wf _)
    running := fun _ => ⟨rfl, rfl, by decide, by decide, by decide⟩
    idle := fun h => absurd h (by decide) }

theorem witness_RunningOperationEnds :
    let s := running tableB 0 [0, 128] 3 [9, 9, 9]
    s.Inv ∧ s.Truthful ∧ s.busy = true ∧ s.host = [] :=
  ⟨running_inv, ⟨by decide, by decide⟩, rfl, rfl⟩

theorem witness_ElementLevelAgreesWithInvocationLevel :
    let s := bench tableB [0, 128] 3 [9, 9, 9]
    s.Inv ∧ s.Truthful ∧ s.CanStart ∧ 254 < 256 ∧ 254 % 4 ≠ 3 ∧ s.inLen + 2 ≤ 4 :=
  ⟨bench_inv _ _ _ _ (by decide) (by decide), bench_truthful _ _ (by decide), bench_canStart _ _ _ _,
    by decide, by decide, by decide⟩

/-- A running decode whose input view is one byte too short for the pair at `POS`. -/
theorem witness_ElementOutsideInputViewFaults :
    let s := { running tableB 0 [0, 128] 3 [9, 9, 9] with inView := viewOf [0] }
    s.busy = true ∧ elementPlace s.op ≠ none ∧ s.pos < elementCount s.op s.inLen ∧
    s.inView.size < elementLength s.op * s.pos + elementLength s.op ∧ s.host = [] := by decide

/-- A canonical view, and the last offset of each view. -/
theorem witness_HostReadsAndWritesViews :
    let s := bench tableB [0, 128] 3 [9, 9, 9]
    let h (a : HostAction) : State := { s with host := [a] }
    (∀ a, (h a).busy = false) ∧ (viewOf [1, 0, 2]).wf = true ∧ 1 < s.inView.size ∧ 2 < s.outView.size ∧
    s.inView.mem.wf = true ∧ s.outView.mem.wf = true ∧
    (h (.lendIn (viewOf [1, 0, 2]))).host = .lendIn (viewOf [1, 0, 2]) :: [] ∧
    (h (.lendOut (viewOf [1, 0, 2]))).host = .lendOut (viewOf [1, 0, 2]) :: [] ∧
    (h (.storeIn 1 0)).host = .storeIn 1 0 :: [] ∧ (h (.loadIn 1)).host = .loadIn 1 :: [] ∧
    (h (.storeOut 2 0)).host = .storeOut 2 0 :: [] ∧ (h (.loadOut 2)).host = .loadOut 2 :: [] :=
  ⟨fun _ => rfl, by decide, by decide, by decide, by decide, by decide, rfl, rfl, rfl, rfl, rfl, rfl⟩

theorem witness_WaitAndPendingResetLetTheMachineMove :
    (let s := { State.reset with host := [.wait] }
     s.busy = false ∧ s.host = .wait :: [] ∧ s.lutReady = true) ∧
    (let s := { building with host := [.reset 1] }
     s.busy = false ∧ s.host = .reset (0 + 1) :: [] ∧ s.lutReady = false ∧ s.hueBuilt = false ∧
     { s with hueBuilt := true }.hueBuilt = true) := by decide

/-- The first value too wide, a listed 0, the first offset outside a view. -/
theorem witness_ImpossibleHostActionsRefused :
    let s := bench tableB [0, 128] 3 [9, 9, 9]
    s.busy = false ∧ { s with host := [.storeIn 2 1] }.host = .storeIn 2 1 :: [] ∧ 256 ≤ 256 ∧
    2 ^ s.hw.addrW ≤ 2 ^ 32 ∧ View.wf ⟨4, [(1, 0)]⟩ = false ∧ s.inView.size ≤ 2 ∧ s.outView.size ≤ 3 :=
  ⟨rfl, rfl, by decide, Nat.le_refl _, by decide, by decide, by decide⟩

end Sys2Proof.Machine.Tests
end

section
/-! PROOFS. Statements of 00_scope.md: the parameters no step changes (R6, R14), the fault of a write outside
the output view (R9), and the two levels of an operation (R5). -/

namespace Sys2Proof.Machine

/-! ### The parameters -/

theorem clmStep_hw {s t : State} (h : clmStep s = .next t) : t.hw = s.hw := by
  rcases clmStep_eq_next h with
    ⟨-, -, helem⟩ | ⟨-, -, rfl⟩ | ⟨-, -, rfl⟩ | ⟨-, -, hexec⟩
  · rw [(painted_of_elementStep helem).1.frame]
    rfl
  · rfl
  · rfl
  · rw [(executed_of_exec hexec).frame]

theorem hostStep_hw {a : HostAction} {s t : State} (h : hostStep a s = .next t) : t.hw = s.hw := by
  rcases (hostStep_eq_next h).2 with
    ⟨v, i, rest, -, -, hexec⟩ | ⟨v, -, rfl⟩ | ⟨v, -, rfl⟩ | ⟨r, -, rfl⟩ | ⟨v, -, rfl⟩ | ⟨v, -, rfl⟩ |
    ⟨o, b, -, rfl⟩ | ⟨o, b, -, rfl⟩ | ⟨o, -, rfl⟩ | ⟨o, -, rfl⟩ | ⟨-, hclm⟩ | ⟨-, rfl⟩
  any_goals rfl
  · rw [(executed_of_exec hexec).frame]
  · exact clmStep_hw hclm

/-- Settles O48: the CLM's own move, a reset and a host action each keep the parameters. -/
theorem stepKeepsParameters : Obligations.StepKeepsParameters := by
  intro s t h
  rcases step_cases s with ⟨rest, -, e⟩ | ⟨rest, -, e⟩ | ⟨a, rest, -, -, -, e⟩
  · rw [e] at h
    exact clmStep_hw (s := { s with host := rest }) h
  · rw [e] at h
    cases h
    rfl
  · rw [e] at h
    exact hostStep_hw (s := { s with host := rest }) h

/-! ### Writes outside the output view -/

/-- An element form runs as its guard and the painting of one color (R91, R102, R117). -/
theorem exec_eq_runForm {i : Instr} (h : i.place = .hslStream ∨ i.place = .rgbStream) (s : State) :
    ∃ c, exec i s = runForm i.place c s := by
  cases i with
  | pxDark hue mag => exact ⟨_, rfl⟩
  | pxLight hue mag => exact ⟨_, rfl⟩
  | pxRgb332 r3 g3 b2 => exact ⟨_, rfl⟩
  | hsldec | rgbdec | segmap | buildHue | buildPack => simp [Instr.place] at h

/-- An element's color that has bytes and does not fit faults (R9). -/
theorem paint_of_not_fits {c : Rgb} {s : State} (hne : paintBytes s c ≠ [])
    (hout : s.outCap < paintOffset s + (paintBytes s c).length ∨
      s.outView.size < paintOffset s + (paintBytes s c).length) :
    paint c s = .fault .writeOutsideView := by
  rcases paint_cases c s with ⟨hnil | ⟨hcap, hsize⟩, -⟩ | e
  · exact absurd hnil hne
  · omega
  · exact e

/-- Settles O25: the three bytes of a decoder's pixel, and the `3 * count` bytes of a segment, do not fit. -/
theorem pixelOutsideViewFaults : Obligations.PixelOutsideViewFaults := by
  constructor
  · intro s i hplace hat hop hout
    obtain ⟨c, e⟩ := exec_eq_runForm hplace s
    rw [e, runForm_of_atElement hat]
    apply paint_of_not_fits
    · simp [paintBytes_decoder hop, pixelBytes]
    · rwa [paintOffset_decoder hop, paintBytes_decoder hop, pixelBytes_length]
  · intro s i hplace hat hop hcount hout
    obtain ⟨c, e⟩ := exec_eq_runForm (Or.inl hplace) s
    have hpos : 0 < (segDesc s.hw.segTable s.pos).count.toNat :=
      Nat.pos_of_ne_zero fun h0 => hcount (BitVec.eq_of_toNat_eq h0)
    have hlen : (paintBytes s c).length = 3 * (segDesc s.hw.segTable s.pos).count.toNat := by
      rw [paintBytes_segmap hop, fillBytes_length]
    rw [e, hplace, runForm_of_atElement hat]
    apply paint_of_not_fits
    · exact List.ne_nil_of_length_pos (by omega)
    · rwa [paintOffset_segmap hop, hlen, ← segHi_eq]

/-! ### The two levels of an operation -/

/-- The same state under the other level of description (R5). -/
def atLevel (l : Level) (s : State) : State := { s with hw := { s.hw with level := l } }

/-- The same state with nothing left for the host to do. -/
def hostDone (s : State) : State := { s with host := [] }

/-- The state an operation that can start ends in on truthful views: a fault kind its check raises (R134), or
the whole stream painted (R141). -/
def completed (op : BitVec 2) (s : State) : State :=
  match operationCheck (started op s) with
  | some k => afterOperation s op 0 k s.outView.mem
  | none => afterOperation s op (elementCount op s.inLen) .ok
      (streamMem (started op s) 0 (elementCount op s.inLen) s.outView.mem)

theorem completed_of_check {op : BitVec 2} {s : State} {k : Result} (h : operationCheck (started op s) = some k) :
    completed op s = afterOperation s op 0 k s.outView.mem := by
  simp only [completed, h]

theorem completed_of_pass {op : BitVec 2} {s : State} (h : operationCheck (started op s) = none) :
    completed op s = afterOperation s op (elementCount op s.inLen) .ok
      (streamMem (started op s) 0 (elementCount op s.inLen) s.outView.mem) := by
  simp only [completed, h]

/-- What the end of an operation leaves as it was, whatever its result, is what `afterOperation` leaves. -/
theorem completed_eq_afterOperation (op : BitVec 2) (s : State) :
    ∃ p k m, completed op s = afterOperation s op p k m := by
  cases h : operationCheck (started op s) with
  | some k => exact ⟨_, _, _, completed_of_check h⟩
  | none => exact ⟨_, _, _, completed_of_pass h⟩

/-- The end of an operation does not depend on the level. -/
theorem completed_atLevel (op : BitVec 2) (l : Level) (s : State) :
    completed op (atLevel l s) = atLevel l (completed op s) := by
  have hcheck : operationCheck (started op (atLevel l s)) = operationCheck (started op s) :=
    operationCheck_congr rfl rfl rfl rfl
  cases h : operationCheck (started op s) with
  | some k =>
    rw [completed_of_check (hcheck.trans h), completed_of_check h]
    rfl
  | none =>
    have hmem := streamMem_congr (s := started op s) (s' := started op (atLevel l s)) rfl rfl fun _ => rfl
    rw [completed_of_pass (hcheck.trans h), completed_of_pass h, hmem]
    rfl

/-- At the invocation level an operation is one transition to its end (R37). -/
theorem exec_of_invocation {i : Instr} {op : BitVec 2} {s : State} (hi : opcode i = some op) (hcan : s.CanStart)
    (htr : s.Truthful) (hlevel : s.hw.level = .invocation) : exec i s = .next (completed op s) := by
  obtain ⟨check, hexec, hop, hcheck⟩ := exec_of_opcode hi s
  rw [hexec]
  cases h : operationCheck (started op s) with
  | some k => rw [completed_of_check h, runOperation_of_check hcan ((hcheck s).trans h)]
  | none => rw [completed_of_pass h, runOperation_of_pass hcan htr hlevel hop ((hcheck s).trans h) h]

/-- The idle CLM stays as it is while the host has nothing to do (R151). -/
theorem runSteps_of_idle {s : State} (hbusy : s.busy = false) (hready : s.lutReady = true) (hhost : s.host = [])
    (k : Nat) : runSteps k s = .next s := by
  have hstep : step s = .next s := by
    simp [step, sequencerStep, hhost, clmStep, hbusy, hready]
  induction k with
  | zero => rfl
  | succ k ih => rw [runSteps_succ, hstep, andThen_next, ih]

/-- A running operation's step, with nothing for the host to do (R91, R102, R117). -/
theorem step_of_running {s : State} (hbusy : s.busy = true) (hhost : s.host = []) : step s = runningStep s := by
  rw [step_of_busy hbusy (by simp [hhost]), clmStep, if_pos hbusy]

/-- The steps of a sound operation from `POS` on are its element steps and its end (R5, R91, R141). -/
theorem runSteps_of_sound {s : State} (h : s.Sound) (hhost : s.host = []) {n : Nat}
    (hn : s.pos + n = elementCount s.op s.inLen) : runSteps (n + 1) s = runToEnd s := by
  have hleft : elementCount s.op s.inLen - s.pos = n := by omega
  rw [runToEnd, hleft]
  induction n generalizing s with
  | zero =>
    have hstep : step s = .next (endOp .ok s) := by
      rw [step_of_running h.running hhost, runningStep, if_neg (by omega)]
    rw [runSteps_succ, hstep]
    rfl
  | succ n ih =>
    have helem := elementStep_of_sound h (by omega)
    have hstep : step s = .next (paintedState (elementColor s s.pos) s) := by
      rw [step_of_running h.running hhost, runningStep, if_pos (by omega), helem]
    have hn' : (s.pos + 1) + n = elementCount s.op s.inLen := by omega
    rw [runSteps_succ, hstep, andThen_next, runElements, helem, andThen_next]
    exact ih (sound_paintedState h _) hhost hn' (Nat.sub_eq_of_eq_add' hn'.symm)

/-- At the element level an operation reaches its end one step after its last element, and stays there. -/
theorem runSteps_exec_of_element {i : Instr} {op : BitVec 2} {s : State} (hi : opcode i = some op)
    (hcan : s.CanStart) (htr : s.Truthful) (hlevel : s.hw.level = .element) (hhost : s.host = []) {k : Nat}
    (hk : elementCount op s.inLen + 1 ≤ k) : andThen (exec i s) (runSteps k) = .next (completed op s) := by
  obtain ⟨check, hexec, hop, hcheck⟩ := exec_of_opcode hi s
  have hidle : ∀ j, runSteps j (completed op s) = .next (completed op s) := by
    obtain ⟨p, r, m, e⟩ := completed_eq_afterOperation op s
    rw [e]
    exact runSteps_of_idle rfl hcan.ready hhost
  rw [hexec]
  cases h : operationCheck (started op s) with
  | some r =>
    rw [runOperation_of_check hcan ((hcheck s).trans h), ← completed_of_check h, andThen_next, hidle]
  | none =>
    have hsound := sound_started hcan htr hop h
    obtain ⟨j, rfl⟩ := Nat.exists_eq_add_of_le hk
    have hend : runSteps (elementCount op s.inLen + 1) (started op s) = .next (completed op s) := by
      refine (runSteps_of_sound hsound hhost (Nat.zero_add _)).trans ?_
      rw [runToEnd_of_sound hsound (Nat.zero_le _), completed_of_pass h]
      rfl
    rw [runOperation_of_element hcan hlevel ((hcheck s).trans h), andThen_next, runSteps_add, hend,
      andThen_next, hidle]

/-- Every command byte but those of the reserved code is an operation (R51, R52, R58). -/
theorem decode_command_of_code {v : Nat} (hcode : v % 4 ≠ 3) :
    ∃ i op, decode .command [BitVec.ofNat 8 v] = .ok (i, []) ∧ opcode i = some op := by
  have hfield : field (BitVec.ofNat 8 v).toNat 1 0 = v % 4 := by
    simp only [field, BitVec.toNat_ofNat]
    omega
  have hcases : v % 4 = 0 ∨ v % 4 = 1 ∨ v % 4 = 2 := by omega
  rcases hcases with h | h | h
  · exact ⟨.hsldec, 0, by simp only [decode, decodeCommand, hfield, h], rfl⟩
  · exact ⟨.rgbdec, 1, by simp only [decode, decodeCommand, hfield, h], rfl⟩
  · exact ⟨.segmap, 2, by simp only [decode, decodeCommand, hfield, h], rfl⟩

/-- The step of a host that writes `CMD` runs the decoded operation (R51, R140). -/
theorem step_of_command {s : State} {v : Nat} {i : Instr} {rest : List Byte} {tail : List HostAction}
    (hbusy : s.busy = false) (hhost : s.host = .write .cmd v :: tail) (hv : v < 256)
    (hdecode : decode .command [BitVec.ofNat 8 v] = .ok (i, rest)) :
    step s = exec i { s with host := tail } := by
  rw [step_of_host hbusy hhost (by simp)]
  simp [hostStep, hostActionFits, regFits, hv, registerWrite, commandWrite, hdecode]

/-- Settles O54: both levels end in the state `completed` names, which does not depend on the level. -/
theorem elementLevelAgreesWithInvocationLevel : Obligations.ElementLevelAgreesWithInvocationLevel := by
  intro s v _ htr hcan hv hcode
  obtain ⟨i, op, hdecode, hi⟩ := decode_command_of_code hcode
  have hcan' (l : Level) : (atLevel l (hostDone s)).CanStart :=
    ⟨hcan.ready, hcan.idle, hcan.inLenWritten, hcan.outCapWritten⟩
  have htr' (l : Level) : (atLevel l (hostDone s)).Truthful := ⟨htr.inSize, htr.outSize⟩
  have hfirst (l : Level) :
      step { s with hw := { s.hw with level := l }, host := [.write .cmd v] } = exec i (atLevel l (hostDone s)) :=
    step_of_command hcan.idle rfl hv hdecode
  refine ⟨completed op (atLevel .invocation (hostDone s)), ?_, fun k hk => ?_⟩
  · rw [runSteps_succ, hfirst, exec_of_invocation hi (hcan' _) (htr' _) rfl]
    rfl
  · obtain ⟨j, rfl⟩ : ∃ j, k = j + 1 := ⟨k - 1, by omega⟩
    have hcount : elementCount op s.inLen ≤ s.inLen := Nat.div_le_self _ _
    have hj : elementCount op (atLevel .element (hostDone s)).inLen + 1 ≤ j := by
      show elementCount op s.inLen + 1 ≤ j
      omega
    rw [runSteps_succ, hfirst, runSteps_exec_of_element hi (hcan' _) (htr' _) rfl rfl hj,
      completed_atLevel, completed_atLevel]
    rfl

end Sys2Proof.Machine
end

section
/-! PROOFS. Statements of 10_state.md: the invariant of the machine (R18, R19, R22, R77), what no instruction and no
step writes (R11 to R14, R18, R23, R27), what the prior content of `OUT` decides (R24), the host's side (R21, R27),
and reset (R28, R150 to R152). -/

namespace Sys2Proof.Machine

/-! ### The invariant after reset -/

/-- The tables of a reset state are built and ready under `LUT_INIT_MODE = rom` (R28, R150). -/
theorem resetOf_of_rom {hw : Params} (h : hw.lutInit = .rom) :
    (State.resetOf hw).lutReady = true ∧ (∀ c, entry (State.resetOf hw).hueLut c = wheelColor hw.wheel c) ∧
      ∀ p, entry (State.resetOf hw).packLut p = packColor p := by
  simp [State.resetOf, h]

/-- The tables of a reset state are not ready under `LUT_INIT_MODE = build` (R28, R150). -/
theorem resetOf_of_build {hw : Params} (h : hw.lutInit = .build) : (State.resetOf hw).lutReady = false := by
  simp [State.resetOf, h]

theorem resetOf_lutReady (hw : Params) :
    (State.resetOf hw).lutReady = ((State.resetOf hw).hueBuilt && (State.resetOf hw).packBuilt) := by
  cases h : hw.lutInit <;> simp [State.resetOf, h]

theorem resetOf_hueLut {hw : Params} (hbuilt : (State.resetOf hw).hueBuilt = true) :
    (State.resetOf hw).hueLut = hueTable hw.wheel := by
  cases h : hw.lutInit <;> simp_all [State.resetOf]

theorem resetOf_packLut {hw : Params} (hbuilt : (State.resetOf hw).packBuilt = true) :
    (State.resetOf hw).packLut = packTable := by
  cases h : hw.lutInit <;> simp_all [State.resetOf]

theorem inv_resetOf (hw : Params) : (State.resetOf hw).Inv :=
  { inMem := rfl, outMem := rfl, startMem := rfl
    inLenFits := Nat.two_pow_pos _, outCapFits := Nat.two_pow_pos _, posFits := Nat.two_pow_pos _
    ready := resetOf_lutReady hw, hue := resetOf_hueLut, pack := resetOf_packLut
    running := fun hbusy => Bool.noConfusion hbusy, idle := fun _ => rfl }

/-- Settles O50: nothing runs, the lengths are 0, and the tables stand as `LUT_INIT_MODE` says. -/
theorem resetMeetsInvariant : Obligations.ResetMeetsInvariant :=
  ⟨inv_resetOf, inv_resetOf Config.params⟩

/-! ### What keeps the invariant -/

/-- The invariant does not speak of what the host will do. -/
theorem inv_withHost {s : State} (h : s.Inv) (rest : List HostAction) : State.Inv { s with host := rest } :=
  { h with }

theorem elementCount_le (op : BitVec 2) (len : Nat) : elementCount op len ≤ len := Nat.div_le_self _ _

/-- The bytes of `OUT` and the position of a running operation may move inside the view and the stream. -/
theorem inv_setOut_pos {s : State} (h : s.Inv) (hbusy : s.busy = true) {m : Memory} {p : Nat}
    (hm : View.wf { s.outView with mem := m } = true) (hp : p ≤ elementCount s.op s.inLen) :
    State.Inv { setOut m s with pos := p } := by
  obtain ⟨hready, hdone, hform, hcheck, -⟩ := h.running hbusy
  exact { h with
    outMem := hm
    posFits := (hp.trans (elementCount_le _ _)).trans_lt h.inLenFits
    running := fun _ => ⟨hready, hdone, hform, hcheck, hp⟩ }

theorem inv_of_painted {s t : State} (h : s.Inv) (hbusy : s.busy = true) (ht : Painted s t)
    (hpos : t.pos ≤ elementCount s.op s.inLen) : t.Inv := by
  have hview : t.outView.wf = true := ht.view h.outMem
  rw [ht.frame] at hview ⊢
  exact inv_setOut_pos h hbusy hview hpos

/-- An element step of a running operation keeps the invariant (R91, R102, R117). -/
theorem inv_elementStep {s t : State} (h : s.Inv) (hbusy : s.busy = true) (ht : elementStep s = .next t) :
    t.Inv := by
  obtain ⟨hpainted, hpos, hleft⟩ := painted_of_elementStep ht
  exact inv_of_painted h hbusy hpainted (by omega)

/-- The end of an operation keeps the invariant (R141). -/
theorem inv_endOp {s : State} (h : s.Inv) (k : Result) : (endOp k s).Inv :=
  { h with startMem := rfl, running := fun hbusy => Bool.noConfusion hbusy, idle := fun _ => rfl }

/-- An operation that passed its check is started with what the invariant asks of a running one (R140). -/
theorem inv_started {s : State} {op : BitVec 2} (h : s.Inv) (hready : s.lutReady = true)
    (hform : elementPlace op ≠ none) (hcheck : operationCheck (started op s) = none) : (started op s).Inv :=
  { h with
    startMem := View.wf_mem h.outMem
    posFits := Nat.two_pow_pos _
    running := fun _ => ⟨hready, rfl, hform, hcheck, Nat.zero_le _⟩
    idle := fun hbusy => Bool.noConfusion hbusy }

/-- A fault of an operation keeps the invariant: it ends at position 0 with `OUT` as it was (R134). -/
theorem inv_afterOperation_fault {s : State} (h : s.Inv) (op : BitVec 2) (k : Result) :
    (afterOperation s op 0 k s.outView.mem).Inv :=
  { h with
    startMem := rfl
    posFits := Nat.two_pow_pos _
    running := fun hbusy => Bool.noConfusion hbusy
    idle := fun _ => rfl }

/-- An operation keeps the invariant, whether it faults, is left running or runs to its end. -/
theorem inv_runOperation {s t : State} {op : BitVec 2} {check : State → Option Result} (h : s.Inv)
    (hform : elementPlace op ≠ none)
    (hcheck : ∀ u : State, check (started op u) = operationCheck (started op u))
    (ht : runOperation op check s = .next t) : t.Inv := by
  obtain ⟨hcan, ⟨k, -, rfl⟩ | ⟨hpass, -, rfl⟩ | ⟨hpass, -, u, hu, rfl⟩⟩ := runOperation_eq_next ht
  · exact inv_afterOperation_fault h op k
  · exact inv_started h hcan.ready hform ((hcheck s).symm.trans hpass)
  · have hstart : (started op s).Inv := inv_started h hcan.ready hform ((hcheck s).symm.trans hpass)
    obtain ⟨hpainted, hpos⟩ := painted_of_runElements hu
    have hend : u.pos ≤ elementCount op s.inLen := by rw [hpos, started_pos, Nat.zero_add]
    exact inv_endOp (inv_of_painted hstart rfl hpainted hend) .ok

/-- `BUILD.HUE` keeps the invariant: its table is right and `LUT_READY` rises with the last build (R70, R77). -/
theorem inv_hueBuilt {s : State} (h : s.Inv) (hbuilt : s.hueBuilt = false) :
    State.Inv { s with hueLut := hueTable s.hw.wheel, hueBuilt := true, lutReady := s.packBuilt } :=
  { h with
    ready := (Bool.true_and _).symm
    hue := fun _ => rfl
    running := fun hbusy => by
      have hready := (h.running hbusy).1
      rw [h.ready, hbuilt] at hready
      cases hready }

/-- `BUILD.PACK` keeps the invariant, as `BUILD.HUE` does (R74, R77). -/
theorem inv_packBuilt {s : State} (h : s.Inv) (hbuilt : s.packBuilt = false) :
    State.Inv { s with packLut := packTable, packBuilt := true, lutReady := s.hueBuilt } :=
  { h with
    ready := (Bool.and_true _).symm
    pack := fun _ => rfl
    running := fun hbusy => by
      have hready := (h.running hbusy).1
      rw [h.ready, hbuilt, Bool.and_false] at hready
      cases hready }

/-- Every instruction keeps the invariant. -/
theorem inv_exec {i : Instr} {s t : State} (h : s.Inv) (ht : exec i s = .next t) : t.Inv := by
  rcases exec_eq_next ht with
    ⟨op, check, -, hrun, hform, hcheck⟩ | ⟨p, c, -, hat, hpaint⟩ | ⟨-, rfl | ⟨hbuilt, rfl⟩⟩ |
    ⟨-, rfl | ⟨hbuilt, rfl⟩⟩
  · exact inv_runOperation h hform hcheck hrun
  · obtain ⟨hpainted, hpos⟩ := painted_of_paint hpaint
    have hleft := hat.left
    exact inv_of_painted h hat.running hpainted (by omega)
  · exact h
  · exact inv_hueBuilt h hbuilt
  · exact h
  · exact inv_packBuilt h hbuilt

/-- The CLM's own move keeps the invariant, in each of its phases (R143). -/
theorem inv_clmStep {s t : State} (h : s.Inv) (ht : clmStep s = .next t) : t.Inv := by
  rcases clmStep_eq_next ht with ⟨hbusy, -, helem⟩ | ⟨-, -, rfl⟩ | ⟨-, -, rfl⟩ | ⟨-, -, hexec⟩
  · exact inv_elementStep h hbusy helem
  · exact inv_endOp h .ok
  · exact h
  · exact inv_exec h hexec

/-- A host action keeps the invariant while no operation runs: a value that fits its register, a view or a
byte that fits its buffer (R21, R27). -/
theorem inv_hostStep {a : HostAction} {s t : State} (h : s.Inv) (hidle : s.busy = false)
    (ht : hostStep a s = .next t) : t.Inv := by
  have hrunning {P : Prop} (hbusy : s.busy = true) : P := by rw [hidle] at hbusy; cases hbusy
  obtain ⟨hfits, hcases⟩ := hostStep_eq_next ht
  rcases hcases with
    ⟨v, i, rest, -, -, hexec⟩ | ⟨v, rfl, rfl⟩ | ⟨v, rfl, rfl⟩ | ⟨r, -, rfl⟩ | ⟨v, rfl, rfl⟩ | ⟨v, rfl, rfl⟩ |
    ⟨o, b, rfl, rfl⟩ | ⟨o, b, rfl, rfl⟩ | ⟨o, -, rfl⟩ | ⟨o, -, rfl⟩ | ⟨-, hclm⟩ | ⟨-, rfl⟩
  · exact inv_exec h hexec
  · exact { h with inLenFits := of_decide_eq_true hfits, running := hrunning }
  · exact { h with outCapFits := of_decide_eq_true hfits, running := hrunning }
  · exact { h with }
  · exact { h with inMem := hfits }
  · exact { h with outMem := hfits }
  · exact { h with inMem := View.wf_write o b h.inMem (of_decide_eq_true hfits) }
  · exact { h with outMem := View.wf_write o b h.outMem (of_decide_eq_true hfits) }
  · exact { h with }
  · exact { h with }
  · exact inv_clmStep h hclm
  · exact h

/-- Reset keeps the views, whose bytes it may scramble inside `OUT` only, and sets the rest (R28, R152). -/
theorem inv_resetStep {s : State} (h : s.Inv) : (resetStep s).Inv := by
  have hout : (applyReset s (finalOut s)).outView.wf = true := by
    rw [applyReset_outView]
    split
    · exact (scrambled_reads s (finalOut s) (View.wf_mem h.outMem)).2.1 h.outMem
    · exact h.outMem
  exact { inv_resetOf s.hw with inMem := h.inMem, outMem := hout }

/-- Settles O51: the CLM's own move, a reset and a host action each keep the invariant. -/
theorem stepKeepsInvariant : Obligations.StepKeepsInvariant := by
  intro s t h ht
  rcases step_cases s with ⟨rest, -, e⟩ | ⟨rest, -, e⟩ | ⟨a, rest, -, hidle, -, e⟩
  · rw [e] at ht
    exact inv_clmStep (inv_withHost h rest) ht
  · rw [e] at ht
    cases ht
    exact inv_resetStep (inv_withHost h rest)
  · rw [e] at ht
    exact inv_hostStep (inv_withHost h rest) hidle ht

/-! ### The prior content of the output view -/

theorem opcode_of_place {i : Instr} (h : i.place = .command) : ∃ op, opcode i = some op := by
  cases i with
  | hsldec => exact ⟨0, rfl⟩
  | rgbdec => exact ⟨1, rfl⟩
  | segmap => exact ⟨2, rfl⟩
  | pxDark | pxLight | pxRgb332 | buildHue | buildPack => cases h

theorem canStart_of_exec {i : Instr} {op : BitVec 2} {s t : State} (hi : opcode i = some op)
    (h : exec i s = .next t) : s.CanStart := by
  obtain ⟨check, hexec, -, -⟩ := exec_of_opcode hi s
  exact (runOperation_eq_next (hexec.symm.trans h)).1

theorem operationCheck_started_setOut (op : BitVec 2) (s : State) (m : Memory) :
    operationCheck (started op (setOut m s)) = operationCheck (started op s) :=
  operationCheck_congr rfl rfl rfl rfl

/-- The end of an operation that ran over another content of `OUT` differs in that content alone (R24). -/
theorem completed_setOut (op : BitVec 2) (s : State) (m : Memory) :
    completed op (setOut m s) = setOut (completed op (setOut m s)).outView.mem (completed op s) := by
  have hcheck := operationCheck_started_setOut op s m
  cases h : operationCheck (started op s) with
  | some k => rw [completed_of_check (hcheck.trans h), completed_of_check h]; rfl
  | none => rw [completed_of_pass (hcheck.trans h), completed_of_pass h]; rfl

/-- A byte of `OUT` at the end of an operation is the same over both contents, or the one that stood there in
each (R24, R41). -/
theorem completed_outByte (op : BitVec 2) {s : State} {m : Memory} (hs : s.outView.mem.wf = true)
    (hm : m.wf = true) (a : Nat) :
    (completed op s).outByte a = (completed op (setOut m s)).outByte a ∨
      (completed op s).outByte a = s.outByte a ∧ (completed op (setOut m s)).outByte a = m.read a := by
  have hcheck := operationCheck_started_setOut op s m
  cases h : operationCheck (started op s) with
  | some k =>
    rw [completed_of_check (hcheck.trans h), completed_of_check h]
    exact Or.inr ⟨rfl, rfl⟩
  | none =>
    have hstream := streamMem_congr (s := started op s) (s' := started op (setOut m s)) rfl rfl fun _ => rfl
    rw [completed_of_pass (hcheck.trans h), completed_of_pass h, hstream, outByte_afterOperation,
      outByte_afterOperation]
    rcases streamMem_reads (started op s) (elementCount op s.inLen) a with ⟨v, hpainted⟩ | hleft
    · exact Or.inl ((hpainted _ hs).trans (hpainted m hm).symm)
    · exact Or.inr ⟨hleft _ hs, hleft m hm⟩

/-- Settles O34: both runs end as `completed` says, which paints the same bytes over either content. -/
theorem operationIgnoresOldOutput : Obligations.OperationIgnoresOldOutput := by
  intro s t t' m i hplace hlevel htr hs hm ht ht'
  obtain ⟨op, hi⟩ := opcode_of_place hplace
  have hcan := canStart_of_exec hi ht
  have hcan' : (setOut m s).CanStart := ⟨hcan.ready, hcan.idle, hcan.inLenWritten, hcan.outCapWritten⟩
  have htr' : (setOut m s).Truthful := ⟨htr.inSize, htr.outSize⟩
  rw [exec_of_invocation hi hcan htr hlevel] at ht
  rw [exec_of_invocation hi hcan' htr' hlevel] at ht'
  cases ht
  cases ht'
  exact ⟨completed_setOut op s m, completed_outByte op hs hm⟩

/-! ### What no instruction and no step writes -/

/-- Settles O37: `Executed` lists the fields an instruction may write, and none of these is among them. -/
theorem instructionsSpareArgumentsAndInput : Obligations.InstructionsSpareArgumentsAndInput := by
  intro i s t h
  rw [(executed_of_exec h).frame]
  exact ⟨rfl, rfl, rfl, rfl, rfl, rfl, rfl, rfl, rfl⟩

/-- Settles O38, by what `Executed` says of the tables. -/
theorem onlyBuildsWriteTables : Obligations.OnlyBuildsWriteTables := fun _ _ _ h =>
  have hexec := executed_of_exec h
  ⟨hexec.hue, hexec.pack, hexec.ready⟩

/-- In a ready machine that meets the invariant each table holds what its build gives it (R77). -/
theorem tables_of_ready {s : State} (h : s.Inv) (hready : s.lutReady = true) :
    s.hueLut = hueTable s.hw.wheel ∧ s.packLut = packTable := by
  rw [h.ready, Bool.and_eq_true] at hready
  exact ⟨h.hue hready.1, h.pack hready.2⟩

/-- Settles O49: the invariant fixes the tables of both states by the parameters, which no step changes. -/
theorem tablesNeverChangeOnceReady : Obligations.TablesNeverChangeOnceReady := by
  intro s t h hready hstep hready'
  obtain ⟨hhue, hpack⟩ := tables_of_ready h hready
  obtain ⟨hhue', hpack'⟩ := tables_of_ready (stepKeepsInvariant s t h hstep) hready'
  rw [stepKeepsParameters s t hstep] at hhue'
  exact ⟨hhue'.trans hhue.symm, hpack'.trans hpack.symm⟩

/-- Settles O19: each build looks first whether its table is built. -/
theorem secondBuildChangesNothing : Obligations.SecondBuildChangesNothing :=
  ⟨fun _ hbuilt => if_pos hbuilt, fun _ hbuilt => if_pos hbuilt⟩

/-! ### Commands that cannot start -/

theorem runOperation_of_refused {op : BitVec 2} {check : State → Option Result} {s : State} {r : Refusal}
    (h : beginOp op s = .refused r) : runOperation op check s = .refused r := by
  rw [runOperation, h, andThen_refused]

/-- Settles O31: every operation begins with `beginOp`, which makes the three tests in this order. -/
theorem commandRefusedUnlessItCanStart : Obligations.CommandRefusedUnlessItCanStart := by
  intro s i hplace
  obtain ⟨op, hi⟩ := opcode_of_place hplace
  obtain ⟨check, hexec, -, -⟩ := exec_of_opcode hi s
  rw [hexec]
  refine ⟨fun hready => ?_, fun hready hbusy => ?_, fun hready hbusy hwritten => ?_⟩
  · exact runOperation_of_refused (by simp [beginOp, hready])
  · exact runOperation_of_refused (by simp [beginOp, hready, hbusy])
  · exact runOperation_of_refused (by simp only [beginOp, hready, hbusy, hwritten]; rfl)

/-! ### The host's registers -/

/-- A register write that fits, with no operation running (R21). -/
theorem step_of_write {s : State} {r : Reg} {v : Nat} {rest : List HostAction} (hbusy : s.busy = false)
    (hhost : s.host = .write r v :: rest) (hfits : regFits s.hw r v = true) :
    step s = registerWrite r v { s with host := rest } := by
  rw [step_of_host hbusy hhost (by simp)]
  simp [hostStep, hostActionFits, hfits]

/-- A register read, with no operation running (R21). -/
theorem step_of_read {s : State} {r : Reg} {rest : List HostAction} (hbusy : s.busy = false)
    (hhost : s.host = .read r :: rest) : step s = registerRead r { s with host := rest } := by
  rw [step_of_host hbusy hhost (by simp)]
  rfl

/-- The packed bits of `STATUS` fit its byte (R21). -/
theorem statusByte_toNat (s : State) :
    (statusByte s).toNat =
      resultCode s.result + s.done.toNat * 4 + s.busy.toNat * 8 + s.lutReady.toNat * 16 := by
  have hresult : resultCode s.result < 4 := by cases s.result <;> decide
  have hdone := s.done.toNat_le
  have hbusy := s.busy.toNat_le
  have hready := s.lutReady.toNat_le
  rw [statusByte, BitVec.toNat_ofNat]
  omega

/-- Settles O44: `registerWrite` and `registerRead` at each register. -/
theorem registerAccess : Obligations.RegisterAccess := by
  intro s v rest hbusy
  refine ⟨fun hhost hv => ?_, fun hhost hv => ?_, fun hhost hv => ?_, fun hhost => ?_, fun hhost => ?_,
    fun hhost => ?_, fun hhost => ?_⟩
  · exact step_of_write hbusy hhost (decide_eq_true hv)
  · exact step_of_write hbusy hhost (decide_eq_true hv)
  · exact step_of_write hbusy hhost (decide_eq_true hv)
  · exact step_of_read hbusy hhost
  · exact step_of_read hbusy hhost
  · have hstatus : (statusByte s).toNat = resultCode s.result + s.done.toNat * 4 + s.lutReady.toNat * 16 := by
      simp [statusByte_toNat, hbusy]
    rw [← hstatus]
    exact step_of_read hbusy hhost
  · exact ⟨Config.freeByte s.draws, step_of_read hbusy hhost⟩

/-! ### The host's views -/

theorem hostStep_lendIn {v : View} (hv : v.wf = true) (s : State) :
    hostStep (.lendIn v) s = .next { s with inView := v } := by
  simp [hostStep, hostActionFits, hv]

theorem hostStep_lendOut {v : View} (hv : v.wf = true) (s : State) :
    hostStep (.lendOut v) s = .next { s with outView := v } := by
  simp [hostStep, hostActionFits, hv]

theorem hostStep_storeIn (s : State) {a : Nat} (ha : a < s.inView.size) (b : Byte) :
    hostStep (.storeIn a b) s = .next { s with inView := { s.inView with mem := s.inView.mem.write a b } } := by
  simp [hostStep, hostActionFits, ha]

theorem hostStep_storeOut (s : State) {a : Nat} (ha : a < s.outView.size) (b : Byte) :
    hostStep (.storeOut a b) s = .next { s with outView := { s.outView with mem := s.outView.mem.write a b } } := by
  simp [hostStep, hostActionFits, ha]

theorem hostStep_loadIn {s : State} {a : Nat} (ha : a < s.inView.size) :
    hostStep (.loadIn a) s = .next { s with readData := (s.inByte a).toNat } := by
  simp [hostStep, hostActionFits, ha, State.inByte]

theorem hostStep_loadOut {s : State} {a : Nat} (ha : a < s.outView.size) :
    hostStep (.loadOut a) s = .next { s with readData := (s.outByte a).toNat } := by
  simp [hostStep, hostActionFits, ha, State.outByte]

/-- Settles O56: a lent view replaces the old one, a store is `Memory.write`, a load is `Memory.read`. -/
theorem hostReadsAndWritesViews : Obligations.HostReadsAndWritesViews := by
  intro s rest hbusy
  refine ⟨fun v hv => ⟨fun hhost => ?_, fun hhost => ?_⟩,
    fun a b ha => ⟨fun hhost hmem => ?_, fun hhost => ?_⟩,
    fun a b ha => ⟨fun hhost hmem => ?_, fun hhost => ?_⟩⟩
  all_goals have hstep := step_of_host hbusy hhost (by simp)
  · exact hstep.trans (hostStep_lendIn hv _)
  · exact hstep.trans (hostStep_lendOut hv _)
  · exact ⟨_, hstep.trans (hostStep_storeIn { s with host := rest } ha b), rfl, Memory.read_write hmem a b⟩
  · exact hstep.trans (hostStep_loadIn ha)
  · exact ⟨_, hstep.trans (hostStep_storeOut { s with host := rest } ha b), rfl, Memory.read_write hmem a b⟩
  · exact hstep.trans (hostStep_loadOut ha)

theorem hostStep_of_not_fits {a : HostAction} {s : State} (h : hostActionFits s a = false) :
    hostStep a s = .refused .illFormedHostAction := if_pos h

/-- Settles O58: none of these actions passes `hostActionFits`. -/
theorem impossibleHostActionsRefused : Obligations.ImpossibleHostActionsRefused := by
  intro s a rest hbusy hhost hbad
  have hfits : hostActionFits s a = false := by
    rcases hbad with ⟨v, hwide, ha⟩ | ⟨v, hwide, ha⟩ | ⟨v, hform, ha⟩ | ⟨o, b, hout, ha⟩ | ⟨o, b, hout, ha⟩
    · rcases ha with rfl | rfl <;> exact decide_eq_false (Nat.not_lt.2 hwide)
    · rcases ha with rfl | rfl <;> exact decide_eq_false (Nat.not_lt.2 hwide)
    · rcases ha with rfl | rfl <;> exact hform
    · rcases ha with rfl | rfl <;> exact decide_eq_false (Nat.not_lt.2 hout)
    · rcases ha with rfl | rfl <;> exact decide_eq_false (Nat.not_lt.2 hout)
  have hreset : ∀ k, a ≠ .reset k := by
    rintro k rfl
    cases hfits
  rw [step_of_host hbusy hhost hreset]
  exact hostStep_of_not_fits hfits

/-! ### Reset -/

/-- Settles O46: the fields of `applyReset`, with `OUT` left alone because nothing runs. -/
theorem resetLeavesViewsAndClearsStatus : Obligations.ResetLeavesViewsAndClearsStatus := by
  intro s rest hbusy hhost
  refine ⟨_, step_of_reset hhost, rfl, rfl, rfl, rfl, rfl, rfl, rfl, rfl, rfl, ?_, resetOf_of_rom,
    resetOf_of_build⟩
  simp [resetStep, hbusy]

/-- The offsets a running operation could have written lie in its pixels, or in its segments (R38, R39). -/
theorem mem_targetOffsets {s : State} {a : Nat} (h : a ∈ targetOffsets s) :
    (s.op ≠ 2 → a < 3 * elementCount s.op s.inLen) ∧
      (s.op = 2 → ∃ k, k < elementCount s.op s.inLen ∧ InSegment s.hw.segTable k a) := by
  obtain ⟨hmem, -⟩ := List.mem_filter.1 h
  constructor
  · intro hop
    rw [if_neg hop] at hmem
    exact List.mem_range.1 hmem
  · intro hop
    rw [if_pos hop] at hmem
    obtain ⟨k, hk, ha⟩ := List.mem_flatMap.1 hmem
    exact ⟨k, List.mem_range.1 hk, List.mem_range'_1.1 ha⟩

/-- Settles O47: the fields of `applyReset`, with `OUT` scrambled at the offsets of `targetOffsets`. -/
theorem resetAbandonsOperation : Obligations.ResetAbandonsOperation := by
  intro s rest hwf hbusy hhost
  have hreads := (scrambled_reads { s with host := rest } (finalOut { s with host := rest }) hwf).2.2
  have hout (a : Nat) : (resetStep { s with host := rest }).outByte a =
      (scrambled { s with host := rest } (finalOut { s with host := rest })).read a := by
    simp [State.outByte, resetStep, hbusy]
  refine ⟨_, step_of_reset hhost, rfl, rfl, rfl, rfl, rfl, rfl, rfl, rfl, resetOf_of_rom, resetOf_of_build, rfl,
    ?_, fun a hdecoder hsegmap => ?_, fun a => ?_⟩
  · simp [resetStep, hbusy]
  · rw [hout]
    rcases hreads a with hkept | ⟨hmem, -⟩
    · exact hkept
    · obtain ⟨hpixels, hsegments⟩ := mem_targetOffsets hmem
      by_cases hop : s.op = 2
      · obtain ⟨k, hk, hin⟩ := hsegments hop
        exact absurd hin (hsegmap hop k hk)
      · exact absurd (hpixels hop) (Nat.not_lt.2 (hdecoder hop))
  · rw [hout]
    rcases hreads a with hkept | ⟨-, hold | hnew⟩
    · exact Or.inr (Or.inl hkept)
    · exact Or.inl hold
    · exact Or.inr (Or.inr hnew)

end Sys2Proof.Machine
end

section
/-! PROOFS. Statements of 20_memory.md: where the segments lie (R39, R40), an operation run again (R36), the bytes of
`OUT` no instruction writes, and no access outside a view of the stated size (R47). -/

namespace Sys2Proof.Machine

/-! ### Segment geometry -/

theorem segLo_eq (t : SegTable) (k : Nat) : segLo t k = k / 32 * 564 + 3 * (segDesc t k).start.toNat := by
  simp [segLo, Config.digitStride, Config.bpp, Nat.mul_comm]

/-- The segment table repeats every 32 indices (R111). -/
theorem segDesc_add_digit (t : SegTable) (k : Nat) : segDesc t (k + 32) = segDesc t k := by
  simp [segDesc]

theorem segLo_ge_digit (t : SegTable) (k : Nat) : k / 32 * 564 ≤ segLo t k := by
  rw [segLo_eq]
  exact Nat.le_add_right _ _

/-- A well-formed descriptor ends inside the 188 pixels of its digit (R17). -/
theorem segHi_le_digit (t : SegTable) (k : Nat) : segHi t k ≤ (k / 32 + 1) * 564 := by
  have hfits := (segDesc t k).fits
  rw [segHi_eq, segLo_eq]
  omega

theorem segLo_add_digit (t : SegTable) (k : Nat) : segLo t (k + 32) = segLo t k + 564 := by
  rw [segLo_eq, segLo_eq, segDesc_add_digit]
  omega

theorem segHi_add_digit (t : SegTable) (k : Nat) : segHi t (k + 32) = segHi t k + 564 := by
  rw [segHi_eq, segHi_eq, segLo_add_digit, segDesc_add_digit]
  omega

/-- An offset tells the digit of every segment that holds it. -/
theorem digit_of_inSegment {t : SegTable} {k a : Nat} (h : InSegment t k a) : k / 32 = a / 564 := by
  obtain ⟨hlo, hhi⟩ := h
  have hge := segLo_ge_digit t k
  have hle := segHi_le_digit t k
  omega

/-- Settles O35: a segment starts and ends in its digit, so an offset in two segments fixes one digit. -/
theorem segmentsStayInTheirDigits : Obligations.SegmentsStayInTheirDigits := by
  intro t k k'
  refine ⟨segLo_ge_digit t k, segHi_le_digit t k, segLo_add_digit t k, segHi_add_digit t k, ?_⟩
  rintro hdigits a ⟨hk, hk'⟩
  exact hdigits ((digit_of_inSegment hk).trans (digit_of_inSegment hk').symm)

/-! ### An operation run again -/

/-- Painting a stream again changes nothing: each byte is a painted one, or one that no element paints. -/
theorem streamMem_idem (s : State) (n : Nat) {m : Memory} (hm : m.wf = true) :
    streamMem s 0 n (streamMem s 0 n m) = streamMem s 0 n m := by
  have hpainted := wf_streamMem s hm 0 n
  refine Memory.eq_of_read (wf_streamMem s hpainted 0 n) hpainted fun a => ?_
  rcases streamMem_reads s n a with ⟨v, hv⟩ | hleft
  · exact (hv _ hpainted).trans (hv m hm).symm
  · exact hleft _ hpainted

theorem operationCheck_started_afterOperation (op : BitVec 2) (s : State) (p : Nat) (k : Result) (m : Memory) :
    operationCheck (started op (afterOperation s op p k m)) = operationCheck (started op s) :=
  operationCheck_congr rfl rfl rfl rfl

/-- The end of an operation is its own end: the checks and the stream read nothing that it writes (R36). -/
theorem completed_idem (op : BitVec 2) {s : State} (hs : s.outView.mem.wf = true) :
    completed op (completed op s) = completed op s := by
  cases h : operationCheck (started op s) with
  | some k =>
    rw [completed_of_check h,
      completed_of_check ((operationCheck_started_afterOperation op s _ _ _).trans h)]
    rfl
  | none =>
    have hstream (p : Nat) (k : Result) (m : Memory) :=
      streamMem_congr (s := started op s) (s' := started op (afterOperation s op p k m)) rfl rfl fun _ => rfl
    rw [completed_of_pass h,
      completed_of_pass ((operationCheck_started_afterOperation op s _ _ _).trans h), hstream,
      afterOperation_inLen, afterOperation_outView, streamMem_idem _ _ hs]
    rfl

/-- Settles O33: the first run ends in `completed`, which can start again and is its own end. -/
theorem operationIsIdempotent : Obligations.OperationIsIdempotent := by
  intro s t i hplace hlevel hinv htr ht
  obtain ⟨op, hi⟩ := opcode_of_place hplace
  have hcan := canStart_of_exec hi ht
  rw [exec_of_invocation hi hcan htr hlevel] at ht
  cases ht
  have hidem := completed_idem op (View.wf_mem hinv.outMem)
  obtain ⟨p, k, m, hend⟩ := completed_eq_afterOperation op s
  rw [hend] at hidem ⊢
  have hcan' : (afterOperation s op p k m).CanStart := ⟨hcan.ready, rfl, hcan.inLenWritten, hcan.outCapWritten⟩
  have htr' : (afterOperation s op p k m).Truthful := ⟨htr.inSize, htr.outSize⟩
  rw [exec_of_invocation hi hcan' htr' hlevel, hidem]

/-! ### Bytes beyond `OUT_CAP` -/

/-- Settles O39, by what `Executed` says of the output view. -/
theorem writesStayBelowCapacity : Obligations.WritesStayBelowCapacity := by
  intro i s t hwf h
  have hexec := executed_of_exec h
  exact ⟨by rw [hexec.frame], hexec.beyond hwf⟩

/-! ### No access outside a view of the stated size -/

/-- A running operation has passed its checks; on views of the stated sizes it is sound (R47, R154). -/
theorem sound_of_running {s : State} (h : s.Inv) (htr : s.Truthful) (hbusy : s.busy = true) : s.Sound := by
  obtain ⟨hready, -, hform, hcheck, -⟩ := h.running hbusy
  exact ⟨htr, hready, hbusy, hform, hcheck⟩

theorem beginOp_ne_fault (op : BitVec 2) (s : State) (f : Fault) : beginOp op s ≠ .fault f := by
  unfold beginOp
  split_ifs <;> nofun

/-- An operation that can start, on views of the stated sizes, answers a next state, whatever its checks say and
at either level. -/
theorem exec_of_canStart {i : Instr} {op : BitVec 2} {s : State} (hi : opcode i = some op) (hcan : s.CanStart)
    (htr : s.Truthful) : ∃ t, exec i s = .next t := by
  cases hlevel : s.hw.level with
  | invocation => exact ⟨_, exec_of_invocation hi hcan htr hlevel⟩
  | element =>
    obtain ⟨check, hexec, -, -⟩ := exec_of_opcode hi s
    rw [hexec]
    cases hcheck : check (started op s) with
    | some k => exact ⟨_, runOperation_of_check hcan hcheck⟩
    | none => exact ⟨_, runOperation_of_element hcan hlevel hcheck⟩

/-- A command on views of the stated sizes does not fault: it is refused, or it can start (R140). -/
theorem exec_command_ne_fault {i : Instr} {s : State} (hplace : i.place = .command) (htr : s.Truthful)
    (f : Fault) : exec i s ≠ .fault f := by
  intro h
  obtain ⟨op, hi⟩ := opcode_of_place hplace
  obtain ⟨check, hexec, -, -⟩ := exec_of_opcode hi s
  rcases andThen_eq_fault.1 (hexec.symm.trans h) with hbegin | ⟨u, hbegin, -⟩
  · exact beginOp_ne_fault op s f hbegin
  · obtain ⟨t, ht⟩ := exec_of_canStart hi (beginOp_eq_next.1 hbegin).1 htr
    cases ht.symm.trans h

/-- The next build touches no view (R70, R74). -/
theorem exec_nextBuild_ne_fault (s : State) (f : Fault) : exec (nextBuild s) s ≠ .fault f := by
  cases hhue : s.hueBuilt with
  | false => simp [nextBuild, exec, execBuildHue, hhue]
  | true => cases hpack : s.packBuilt <;> simp [nextBuild, exec, execBuildPack, hhue, hpack]

/-- The CLM's own move does not fault on views of the stated sizes, in any of its phases (R47, R143). -/
theorem clmStep_ne_fault {s : State} (h : s.Inv) (htr : s.Truthful) (f : Fault) : clmStep s ≠ .fault f := by
  unfold clmStep runningStep
  split_ifs with hbusy hleft hready
  · rw [elementStep_of_sound (sound_of_running h htr hbusy) hleft]
    nofun
  · nofun
  · nofun
  · exact exec_nextBuild_ne_fault s f

/-- A host action faults only through the command it writes, or through the CLM it lets move. -/
theorem hostStep_eq_fault {a : HostAction} {s : State} {f : Fault} (h : hostStep a s = .fault f) :
    (∃ i, i.place = .command ∧ exec i s = .fault f) ∨ clmStep s = .fault f := by
  unfold hostStep at h
  split at h
  · cases h
  · cases a with
    | write r v =>
      cases r with
      | cmd =>
        simp only [registerWrite, commandWrite] at h
        split at h
        next i _ hdecode => exact Or.inl ⟨i, place_of_decode_command hdecode, h⟩
        next => cases h
      | inLen | outCap | status => cases h
    | wait => exact Or.inr h
    | read | lendIn | lendOut | storeIn | storeOut | loadIn | loadOut | reset => cases h

/-- Settles O52: neither the CLM's own move, nor a reset, nor a host action faults. -/
theorem truthfulStepNeverFaults : Obligations.TruthfulStepNeverFaults := by
  intro s f h htr hstep
  have hinv := inv_withHost h
  have htr' (rest : List HostAction) : State.Truthful { s with host := rest } := ⟨htr.inSize, htr.outSize⟩
  rcases step_cases s with ⟨rest, -, e⟩ | ⟨rest, -, e⟩ | ⟨a, rest, -, -, -, e⟩
  · exact clmStep_ne_fault (hinv rest) (htr' rest) f (e.symm.trans hstep)
  · cases e.symm.trans hstep
  · rcases hostStep_eq_fault (e.symm.trans hstep) with ⟨i, hplace, hexec⟩ | hclm
    · exact exec_command_ne_fault hplace (htr' rest) f hexec
    · exact clmStep_ne_fault (hinv rest) (htr' rest) f hclm

end Sys2Proof.Machine
end

section
/-! PROOFS. Statements of 30_encoding.md: decode and encode agree (R50 to R58), an element form in and outside the
stream that holds it (R53), and the steps that run a decoded word (R51, R63). -/

namespace Sys2Proof.Machine

/-! ### The encoder in the fields of the formats -/

theorem encode_pxDark (hue : Byte) (mag : BitVec 7) : encode (.pxDark hue mag) = [hue, lightByte false mag] := by
  simp [encode, lightByte, shl]

theorem encode_pxLight (hue : Byte) (mag : BitVec 7) : encode (.pxLight hue mag) = [hue, lightByte true mag] := by
  simp [encode, lightByte, shl]

theorem encode_pxRgb332 (r3 g3 : BitVec 3) (b2 : BitVec 2) :
    encode (.pxRgb332 r3 g3 b2) = [packedByte r3 g3 b2] := by
  simp [encode, packedByte, shl]

/-- `mode` and `mag` stand side by side in the lightness byte (R54). -/
theorem lightByte_toNat (mode : Bool) (mag : BitVec 7) :
    (lightByte mode mag).toNat = mode.toNat * 128 + mag.toNat := by
  have hmode := mode.toNat_le
  have hmag := mag.isLt
  simp only [lightByte, shl, BitVec.toNat_ofNat]
  omega

/-- The three fields stand side by side in the packed byte (R57). -/
theorem packedByte_toNat (r3 g3 : BitVec 3) (b2 : BitVec 2) :
    (packedByte r3 g3 b2).toNat = r3.toNat * 32 + g3.toNat * 4 + b2.toNat := by
  have hr := r3.isLt
  have hg := g3.isLt
  have hb := b2.isLt
  simp only [packedByte, shl, BitVec.toNat_ofNat]
  omega

/-! ### The decoder by the value of a byte -/

theorem field_low2 (n : Nat) : field n 1 0 = n % 4 := by simp [field]

theorem decodeHsl_of_lt {hue l : Byte} (h : l.toNat < 128) :
    decodeHsl hue l = .pxDark hue (BitVec.ofNat 7 l.toNat) := by
  rw [decodeHsl, field_bit7 l.isLt, if_pos (by omega), field_low7, Nat.mod_eq_of_lt h]

theorem decodeHsl_of_ge {hue l : Byte} (h : 128 ≤ l.toNat) :
    decodeHsl hue l = .pxLight hue (BitVec.ofNat 7 (l.toNat - 128)) := by
  have hlow : l.toNat % 128 = l.toNat - 128 := by have := l.isLt; omega
  rw [decodeHsl, field_bit7 l.isLt, if_neg (by omega), field_low7, hlow]

theorem decodeRgb332_eq (p : Byte) :
    decodeRgb332 p = .pxRgb332 (BitVec.ofNat 3 (p.toNat / 32)) (BitVec.ofNat 3 (p.toNat / 4 % 8))
      (BitVec.ofNat 2 (p.toNat % 4)) := by
  have hhigh : field p.toNat 7 5 = p.toNat / 32 := by
    have := p.isLt
    simp only [field]
    omega
  rw [decodeRgb332, hhigh, field_low2]
  rfl

/-! ### Decode and encode -/

theorem wellFormedAt_iff {i : Instr} {p : Place} : i.wellFormedAt p = true ↔ i.place = p := beq_iff_eq

theorem decodeHsl_lightByte_false (hue : Byte) (mag : BitVec 7) :
    decodeHsl hue (lightByte false mag) = .pxDark hue mag := by
  have hvalue : (lightByte false mag).toNat = mag.toNat := by simp [lightByte_toNat]
  rw [decodeHsl_of_lt (by rw [hvalue]; exact mag.isLt), hvalue, BitVec.ofNat_toNat, BitVec.setWidth_eq]

theorem decodeHsl_lightByte_true (hue : Byte) (mag : BitVec 7) :
    decodeHsl hue (lightByte true mag) = .pxLight hue mag := by
  have hvalue : (lightByte true mag).toNat = 128 + mag.toNat := by simp [lightByte_toNat]
  rw [decodeHsl_of_ge (by omega), hvalue, Nat.add_sub_cancel_left, BitVec.ofNat_toNat, BitVec.setWidth_eq]

theorem decodeRgb332_packedByte (r3 g3 : BitVec 3) (b2 : BitVec 2) :
    decodeRgb332 (packedByte r3 g3 b2) = .pxRgb332 r3 g3 b2 := by
  have hr := r3.isLt
  have hg := g3.isLt
  have hb := b2.isLt
  have hred : (r3.toNat * 32 + g3.toNat * 4 + b2.toNat) / 32 = r3.toNat := by omega
  have hgreen : (r3.toNat * 32 + g3.toNat * 4 + b2.toNat) / 4 % 8 = g3.toNat := by omega
  have hblue : (r3.toNat * 32 + g3.toNat * 4 + b2.toNat) % 4 = b2.toNat := by omega
  simp only [decodeRgb332_eq, packedByte_toNat, hred, hgreen, hblue, BitVec.ofNat_toNat, BitVec.setWidth_eq]

theorem encode_decodeHsl (h l : Byte) : encode (decodeHsl h l) = [h, l] := by
  have hl := field_bit7 l.isLt
  unfold decodeHsl
  by_cases hlt : l.toNat < 128
  · rw [if_pos (by omega), encode_pxDark, lightByte_dark hlt]
  · rw [if_neg (by omega), encode_pxLight, lightByte_light (Nat.le_of_not_lt hlt)]

theorem encode_decodeRgb332 (p : Byte) : encode (decodeRgb332 p) = [p] := by
  rw [decodeRgb332, encode_pxRgb332, packedByte_fields]

theorem place_decodeHsl (h l : Byte) : (decodeHsl h l).place = .hslStream := by
  unfold decodeHsl
  split <;> rfl

/-- Settles O1: a command's two bits, and the fields of each element format, are read back as they were written. -/
theorem decodeOfEncodeIsIdentity : Obligations.DecodeOfEncodeIsIdentity := by
  intro i p rest hencodable hplace
  obtain rfl := wellFormedAt_iff.1 hplace
  cases i with
  | hsldec | rgbdec | segmap => rfl
  | pxDark hue mag =>
    simp only [Instr.place, encode_pxDark, List.cons_append, List.nil_append, decode, decodeHsl_lightByte_false]
  | pxLight hue mag =>
    simp only [Instr.place, encode_pxLight, List.cons_append, List.nil_append, decode, decodeHsl_lightByte_true]
  | pxRgb332 r3 g3 b2 =>
    simp only [Instr.place, encode_pxRgb332, List.cons_append, List.nil_append, decode, decodeRgb332_packedByte]
  | buildHue | buildPack => simp [Instr.encodable, Instr.place] at hencodable

/-- Settles O2: the bytes at the head of each stream are the fields the decoder takes. -/
theorem encodeOfDecodedElementIsIdentity : Obligations.EncodeOfDecodedElementIsIdentity := by
  intro p bs rest i hp h
  rcases hp with rfl | rfl
  · match bs with
    | [] | [_] => cases h
    | hue :: l :: tail =>
      cases h
      exact ⟨by rw [encode_decodeHsl]; rfl, wellFormedAt_iff.2 (place_decodeHsl hue l)⟩
  · match bs with
    | [] => cases h
    | b :: tail =>
      cases h
      exact ⟨by rw [encode_decodeRgb332]; rfl, wellFormedAt_iff.2 rfl⟩

/-- Settles O3: the form of a pair is its lightness' high bit, a packed byte has one form only. -/
theorem everyStreamElementDecodes : Obligations.EveryStreamElementDecodes := by
  intro h l rest
  refine ⟨fun hlt => ?_, fun hge => ?_, ?_⟩
  · rw [decode, decodeHsl_of_lt hlt]
  · rw [decode, decodeHsl_of_ge hge]
  · rw [decode, decodeRgb332_eq]

/-- Settles O4: the command decoder reads the residue of the byte by 4. -/
theorem commandDecodesByLowBits : Obligations.CommandDecodesByLowBits := by
  intro b rest
  refine ⟨fun h => ?_, fun h => ?_, fun h => ?_, fun h => ?_⟩
  all_goals simp only [decode, decodeCommand, field_low2, h]

/-- Settles O5: each word is an instance of what every command byte and every element decodes to. -/
theorem writtenWordsDecode : Obligations.WrittenWordsDecode := by
  obtain ⟨hhsldec, -, -, -⟩ := commandDecodesByLowBits 0b00000000 []
  obtain ⟨-, hrgbdec, -, -⟩ := commandDecodesByLowBits 0b11111101 []
  obtain ⟨-, -, hsegmap, -⟩ := commandDecodesByLowBits 0b00000010 []
  obtain ⟨hdark, -, -⟩ := everyStreamElementDecodes 0b01010110 0b01000000 []
  obtain ⟨-, hlight, -⟩ := everyStreamElementDecodes 0b10101011 0b11000001 []
  obtain ⟨-, -, hpacked⟩ := everyStreamElementDecodes 0b10110110 0 []
  exact ⟨hhsldec rfl, hrgbdec rfl, hsegmap rfl, hdark (by decide), hlight (by decide), hpacked⟩

/-! ### An element form in its stream and outside -/

/-- A pixel that fits is written at `3 * POS`, and nothing else of `OUT` changes (R38, R41). -/
theorem paint_writesPixel {c : Rgb} {s : State} (hmem : s.outView.mem.wf = true) (hop : s.op ≠ 2)
    (hcap : 3 * s.pos + 3 ≤ s.outCap) (hsize : 3 * s.pos + 3 ≤ s.outView.size) :
    ∃ t, paint c s = .next t ∧ WritesPixel c s t := by
  have hoff := paintOffset_decoder hop
  have hbytes := paintBytes_decoder hop c
  have hout (a : Nat) :
      (paintedState c s).outByte a = (s.outView.mem.writeBytes (3 * s.pos) (pixelBytes c)).read a := by
    rw [← hoff, ← hbytes]
    rfl
  have hchannel {j : Nat} (hj : j < (pixelBytes c).length) :
      (paintedState c s).outByte (3 * s.pos + j) = (pixelBytes c)[j] :=
    (hout _).trans (Memory.read_writeBytes_inside hmem _ hj)
  refine ⟨paintedState c s, paint_of_fits (by rwa [hoff, hbytes]) (by rwa [hoff, hbytes]), rfl, ?_, fun a ha => ?_⟩
  · have hred : (paintedState c s).outByte (3 * s.pos) = c.r := hchannel (j := 0) (by simp)
    have hgreen : (paintedState c s).outByte (3 * s.pos + 1) = c.g := hchannel (by simp)
    have hblue : (paintedState c s).outByte (3 * s.pos + 2) = c.b := hchannel (by simp)
    rw [State.pixelAt, hred, hgreen, hblue]
  · exact (hout a).trans (Memory.read_writeBytes_outside hmem ha)

/-- `SEGMAP` reads no packed stream (R52, R53). -/
theorem op_ne_segmap_of_rgbStream {op : BitVec 2} (h : elementPlace op = some .rgbStream) : op ≠ 2 := by
  rintro rfl
  cases h

/-- Settles O23: the element is at its place, so it paints its table entry. -/
theorem pxRgb332WritesPixel : Obligations.PxRgb332WritesPixel := by
  intro s r3 g3 b2 hmem hat hcap hsize
  obtain ⟨t, ht, hpixel⟩ := paint_writesPixel (c := entry s.packLut (packedByte r3 g3 b2)) hmem
    (op_ne_segmap_of_rgbStream hat.form) hcap hsize
  refine ⟨t, ?_, ?_⟩
  · rw [exec, execPxRgb332, runForm_of_atElement hat, ht]
  · simpa [packedByte, shl] using hpixel

theorem runForm_of_refused {p : Place} {c : Rgb} {s : State} {r : Refusal} (h : elementGuard p s = some r) :
    runForm p c s = .refused r := by
  rw [runForm, h]

/-- Settles O24: `elementGuard` answers before the color is painted. -/
theorem elementOutsideStreamRefused : Obligations.ElementOutsideStreamRefused := by
  intro s i hplace hready
  obtain ⟨c, hexec⟩ := exec_eq_runForm hplace s
  rw [hexec]
  refine ⟨fun hidle => ?_, fun hbusy hform => ?_, fun hbusy hform hend => ?_⟩
  · exact runForm_of_refused (by simp [elementGuard, hready, hidle])
  · exact runForm_of_refused (by simp [elementGuard, hready, hbusy, hform])
  · exact runForm_of_refused (by simp [elementGuard, hready, hbusy, hform, hend])

/-! ### The steps that run a decoded word -/

/-- Settles O40: the step of a write of `CMD` is the decoder's answer. -/
theorem stepRunsWrittenCommand : Obligations.StepRunsWrittenCommand := by
  intro s v rest hbusy hhost hv
  refine ⟨fun i hdecode => step_of_command hbusy hhost hv hdecode, fun hcode => ?_⟩
  have hlow : (BitVec.ofNat 8 v).toNat % 4 = 3 := by rwa [BitVec.toNat_ofNat, Nat.mod_eq_of_lt hv]
  obtain ⟨-, -, -, hreserved⟩ := commandDecodesByLowBits (BitVec.ofNat 8 v) []
  rw [step_of_write hbusy hhost (decide_eq_true hv), registerWrite, commandWrite, hreserved hlow]

/-- A reset not yet due lets the CLM move and comes one step nearer (log 2). -/
theorem step_of_pending_reset {s : State} {k : Nat} {tail : List HostAction}
    (hhost : s.host = .reset (k + 1) :: tail) : step s = clmStep { s with host := .reset k :: tail } := by
  simp only [step, sequencerStep, hhost]

/-- The CLM's own move while an element is left runs the element decoded at `POS` (R91, R102, R117). -/
theorem clmStep_eq_exec {s : State} {p : Place} {bs rest : List Byte} {i : Instr} (hbusy : s.busy = true)
    (hleft : s.pos < elementCount s.op s.inLen) (hform : elementPlace s.op = some p)
    (hbytes : elementBytes s = some bs) (hdecode : decode p bs = .ok (i, rest)) : clmStep s = exec i s := by
  rw [clmStep, if_pos hbusy, runningStep, if_pos hleft, elementStep_eq_exec hform hbytes hdecode]

/-- Settles O41: the host's list, held or with its reset one step nearer, does not change what is fetched. -/
theorem stepRunsFetchedElement : Obligations.StepRunsFetchedElement := by
  intro s p bs rest i hbusy hleft hform hbytes hdecode
  refine ⟨fun hhost => ?_, fun k tail hhost => ?_⟩
  · rw [step_of_busy hbusy hhost]
    exact clmStep_eq_exec hbusy hleft hform hbytes hdecode
  · rw [step_of_pending_reset hhost]
    exact clmStep_eq_exec hbusy hleft hform ((elementBytes_withHost s _).trans hbytes) hdecode

theorem step_of_write_inLen {s : State} {v : Nat} {rest : List HostAction} (hbusy : s.busy = false)
    (hhost : s.host = .write .inLen v :: rest) (hv : v < 2 ^ s.hw.addrW) :
    step s = .next { s with host := rest, inLen := v, inLenWritten := true } :=
  step_of_write hbusy hhost (decide_eq_true hv)

theorem step_of_write_outCap {s : State} {v : Nat} {rest : List HostAction} (hbusy : s.busy = false)
    (hhost : s.host = .write .outCap v :: rest) (hv : v < 2 ^ s.hw.addrW) :
    step s = .next { s with host := rest, outCap := v, outCapWritten := true } :=
  step_of_write hbusy hhost (decide_eq_true hv)

theorem runSteps_of_next {k : Nat} {s t : State} (h : step s = .next t) :
    runSteps (k + 1) s = runSteps k t := by
  rw [runSteps_succ, h, andThen_next]

theorem runSteps_one (s : State) : runSteps 1 s = step s := by
  rw [runSteps_succ]
  cases step s <;> rfl

/-- Settles O45: the view is lent, the two arguments are written, and the write of `CMD` runs the operation. -/
theorem invocationRunsItsOperation : Obligations.InvocationRunsItsOperation := by
  intro s v i hbusy hhost hlen hcap hdecode
  have hcode : v.op.toNat < 256 := Nat.lt_trans v.op.isLt (by decide)
  have hlend : step s = .next { s with inView := viewOf v.input, host := (invocationActions v).tail } := by
    rw [step_of_host hbusy hhost (by simp), hostStep_lendIn (viewOf_wf v.input)]
    rfl
  calc runSteps 4 s
    _ = runSteps 3 _ := runSteps_of_next hlend
    _ = runSteps 2 _ := runSteps_of_next (step_of_write_inLen hbusy rfl hlen)
    _ = runSteps 1 _ := runSteps_of_next (step_of_write_outCap hbusy rfl hcap)
    _ = step _ := runSteps_one _
    _ = _ := step_of_command hbusy rfl hcode hdecode

end Sys2Proof.Machine
end

section
/-! PROOFS. Statements of 40_lut_build.md: hue scaling (R71), the wheel (R72), bit replication (R75), the two tables
and their builds (R70, R74, R76, R77). -/

namespace Sys2Proof.Machine

/-! ### Hue scaling -/

theorem hueDegree_eq (h : Byte) : hueDegree h = h.toNat * 360 / 256 := rfl

theorem hueDegree_le (h : Byte) : hueDegree h ≤ 358 := by
  have := h.isLt
  rw [hueDegree_eq]
  omega

/-- One step of `h` adds 360/256, which is more than 1, before truncation (R71). -/
theorem hueDegree_lt_of_lt {h h' : Byte} (hlt : h.toNat < h'.toNat) : hueDegree h < hueDegree h' := by
  rw [hueDegree_eq, hueDegree_eq]
  omega

theorem hueRem_le (h : Byte) : hueRem h ≤ 250 := by
  rw [hueRem]
  omega

/-- Settles O6: the formulas are the definitions, the ranges follow from `h ≤ 255` and from `H mod 60 ≤ 59`. -/
theorem hueScalingFormulasAndRanges : Obligations.HueScalingFormulasAndRanges := by
  refine ⟨fun h => ?_, by decide, by decide, by decide, fun _ _ => hueDegree_lt_of_lt⟩
  have hrem := hueRem_le h
  exact ⟨hueDegree_eq h, rfl, rfl, hueDegree_le h, Nat.le_of_lt_succ (hueRegion_lt h),
    Nat.le_of_lt_succ (Nat.mod_lt _ (by decide)), hrem, by omega⟩

/-! ### The wheel -/

theorem regionChannel_full (p : RegionPattern) (rem : Nat) : regionChannel p rem p.full = 255 := if_pos rfl

theorem regionChannel_zero (p : RegionPattern) (rem : Nat) : regionChannel p rem p.zero = 0 :=
  (if_neg p.distinct.symm).trans (if_pos rfl)

theorem regionChannel_third {p : RegionPattern} {c : Channel} (hfull : c ≠ p.full) (hzero : c ≠ p.zero) (rem : Nat) :
    regionChannel p rem c = BitVec.ofNat 8 (if p.falling then 255 - rem else rem) :=
  (if_neg hfull).trans (if_neg hzero)

/-- Settles O7: a channel of the entry is that channel of its region, which is one of three kinds. -/
theorem wheelHasFullZeroAndThirdChannel : Obligations.WheelHasFullZeroAndThirdChannel := by
  rintro w h p rfl
  simp only [wheelColor_channel]
  refine ⟨regionChannel_full _ _, regionChannel_zero _ _, fun c hfull hzero => ?_⟩
  have hrem := hueRem_le h
  rw [regionChannel_third hfull hzero, BitVec.toNat_ofNat, Nat.mod_eq_of_lt]
  split <;> omega

/-- The entry of a degree in region `k` is a row of the pattern of region `k` (R72). -/
theorem wheelColor_of_region {h : Byte} {k : Nat} (w : WheelPattern) (hk : hueRegion h = k) (hlt : k < 6) :
    wheelColor w h =
      ⟨regionChannel w[k] (hueRem h) .red, regionChannel w[k] (hueRem h) .green,
        regionChannel w[k] (hueRem h) .blue⟩ := by
  subst hk
  rfl

/-- Settles O8, region by region. -/
theorem standardWheelRows : Obligations.StandardWheelRows := by
  intro h
  match hk : hueRegion h, hueRegion_lt h with
  | 0, hlt | 1, hlt | 2, hlt | 3, hlt | 4, hlt | 5, hlt => exact wheelColor_of_region _ hk hlt

/-! ### Bit replication -/

theorem rep3_toNat {v : Nat} (hv : v < 8) : (rep3 v).toNat = v * 32 + v * 4 + v / 2 := by
  simp only [rep3, shl, shr, BitVec.toNat_ofNat]
  omega

theorem rep2_toNat {v : Nat} (hv : v < 4) : (rep2 v).toNat = v * 64 + v * 16 + v * 4 + v := by
  simp only [rep2, shl, BitVec.toNat_ofNat]
  omega

/-- The three terms of `Rep3` occupy disjoint bits: each is below the lowest bit of the one before it (R75). -/
theorem rep3_or {v : Nat} (hv : v < 8) : (v <<< 5 ||| v <<< 2 ||| v >>> 1) = v * 32 + v * 4 + v / 2 := by
  have hlow : v >>> 1 < 2 ^ 2 := by rw [Nat.shiftRight_eq_div_pow]; omega
  have hmid : v <<< 2 + v >>> 1 < 2 ^ 5 := by rw [Nat.shiftLeft_eq, Nat.shiftRight_eq_div_pow]; omega
  rw [Nat.lor_assoc, ← Nat.shiftLeft_add_eq_or_of_lt hlow, ← Nat.shiftLeft_add_eq_or_of_lt hmid,
    Nat.shiftLeft_eq, Nat.shiftLeft_eq, Nat.shiftRight_eq_div_pow, ← Nat.add_assoc]

/-- The four terms of `Rep2` occupy disjoint bits (R75). -/
theorem rep2_or {v : Nat} (hv : v < 4) :
    (v <<< 6 ||| v <<< 4 ||| v <<< 2 ||| v) = v * 64 + v * 16 + v * 4 + v := by
  have hlow : v < 2 ^ 2 := hv
  have hmid : v <<< 2 + v < 2 ^ 4 := by rw [Nat.shiftLeft_eq]; omega
  have hhigh : v <<< 4 + (v <<< 2 + v) < 2 ^ 6 := by rw [Nat.shiftLeft_eq, Nat.shiftLeft_eq]; omega
  rw [Nat.lor_assoc, Nat.lor_assoc, ← Nat.shiftLeft_add_eq_or_of_lt hlow, ← Nat.shiftLeft_add_eq_or_of_lt hmid,
    ← Nat.shiftLeft_add_eq_or_of_lt hhigh, Nat.shiftLeft_eq, Nat.shiftLeft_eq, Nat.shiftLeft_eq]
  omega

/-- Settles O9: sum and bitwise or have one closed formula, because the terms' bits are disjoint. -/
theorem bitReplicationValues : Obligations.BitReplicationValues := by
  refine ⟨fun v hv => ?_, fun v hv => ?_, by decide, by decide⟩
  · exact ⟨rep3_toNat hv, (rep3_toNat hv).trans (rep3_or hv).symm⟩
  · refine ⟨rep2_toNat hv, ?_, (rep2_toNat hv).trans (rep2_or hv).symm⟩
    rw [rep2_toNat hv]
    omega

theorem rep3_injective {v v' : Nat} (hv : v < 8) (hv' : v' < 8) (h : rep3 v = rep3 v') : v = v' := by
  have hsum := congrArg BitVec.toNat h
  rw [rep3_toNat hv, rep3_toNat hv'] at hsum
  omega

theorem rep2_injective {v v' : Nat} (hv : v < 4) (hv' : v' < 4) (h : rep2 v = rep2 v') : v = v' := by
  have hsum := congrArg BitVec.toNat h
  rw [rep2_toNat hv, rep2_toNat hv'] at hsum
  omega

/-! ### The packed color table -/

theorem field_high3 {n : Nat} (h : n < 256) : field n 7 5 = n / 32 := by
  simp only [field]
  omega

theorem field_mid3 (n : Nat) : field n 4 2 = n / 4 % 8 := rfl

/-- The entry of a packed byte in its three fields `p / 32`, `p / 4 % 8` and `p % 4` (R57, R74). -/
theorem packColor_eq (p : Byte) :
    packColor p = ⟨rep3 (p.toNat / 32), rep3 (p.toNat / 4 % 8), rep2 (p.toNat % 4)⟩ := by
  rw [packColor, field_high3 p.isLt, field_mid3, field_low2]

theorem packColor_injective {p q : Byte} (h : packColor p = packColor q) : p = q := by
  have hp := p.isLt
  have hq := q.isLt
  rw [packColor_eq, packColor_eq, Rgb.mk.injEq] at h
  obtain ⟨hr, hg, hb⟩ := h
  have hred := rep3_injective (by omega) (by omega) hr
  have hgreen := rep3_injective (by omega) (by omega) hg
  have hblue := rep2_injective (by omega) (by omega) hb
  apply BitVec.eq_of_toNat_eq
  omega

/-- Entry 0x20 holds the smallest red step (R74's worked example). -/
theorem packColor_0x20 : packColor 0x20 = ⟨36, 0, 0⟩ := by decide

/-- Settles O10: a channel is the replication of a field, and each replication tells its fields apart. -/
theorem packTableProperties : Obligations.PackTableProperties := by
  simp only [Obligations.PackTableProperties, entry_packTable]
  refine ⟨by decide, by decide, packColor_0x20, fun p => ?_, fun _ _ => packColor_injective⟩
  have hp := p.isLt
  rw [packColor_eq]
  exact ⟨List.mem_map_of_mem (List.mem_range.2 (by omega)), List.mem_map_of_mem (List.mem_range.2 (by omega)),
    List.mem_map_of_mem (List.mem_range.2 (by omega))⟩

/-! ### The table builds -/

theorem exec_buildHue_of_unbuilt {s : State} (h : s.hueBuilt = false) :
    exec .buildHue s = .next { s with hueLut := hueTable s.hw.wheel, hueBuilt := true, lutReady := s.packBuilt } :=
  if_neg (by simp [h])

theorem exec_buildPack_of_unbuilt {s : State} (h : s.packBuilt = false) :
    exec .buildPack s = .next { s with packLut := packTable, packBuilt := true, lutReady := s.hueBuilt } :=
  if_neg (by simp [h])

/-- Settles O17: the table stored is `hueTable`, whose entries `entry_hueTable` gives. -/
theorem buildHueFillsTable : Obligations.BuildHueFillsTable := fun s hbuilt =>
  ⟨_, exec_buildHue_of_unbuilt hbuilt, entry_hueTable s.hw.wheel, rfl⟩

/-- Settles O18: the table stored is `packTable`, whose entries are the replicated fields. -/
theorem buildPackFillsTable : Obligations.BuildPackFillsTable := fun _ hbuilt =>
  ⟨_, exec_buildPack_of_unbuilt hbuilt, fun p => (entry_packTable p).trans (packColor_eq p),
    (entry_packTable 0x20).trans packColor_0x20, rfl⟩

end Sys2Proof.Machine
end

section
/-! PROOFS. Statements of 41_lightness_scaling.md: the two channel formulas and their rounding (R81, R82, R84), `Shade`
over lightness (R80, R85, R86), and the element forms that write a shaded color (R91, R117). -/

namespace Sys2Proof.Machine

/-! ### Scaling by at most 254/256 -/

/-- Scaling by `x / 256` with `x ≤ 254` loses at least what scaling by `254 / 256` loses. -/
theorem scaled_le_scaled_254 (a : Nat) {x : Nat} (hx : x ≤ 254) : a * x / 256 ≤ a * 254 / 256 :=
  Nat.div_le_div_right (Nat.mul_le_mul_left a hx)

theorem scaled_254_le_self (a : Nat) : a * 254 / 256 ≤ a := by omega

theorem scaled_le_self (a : Nat) {x : Nat} (hx : x ≤ 254) : a * x / 256 ≤ a :=
  (scaled_le_scaled_254 a hx).trans (scaled_254_le_self a)

theorem mul_le_of_byte {a x : Nat} (ha : a ≤ 255) (hx : x ≤ 254) : a * x ≤ 64770 := Nat.mul_le_mul ha hx

/-- Dividing by 256 for 255 makes a result too small by a 256th of at most 253, and truncation by less than 1 (R84). -/
theorem div_256_error {p : Nat} (hp : p ≤ 64770) : 255 * (p / 256) ≤ p ∧ p < 255 * (p / 256 + 2) := by omega

/-! ### The channel formulas -/

/-- The result of `Dark` fits a byte, so no bit is lost (R81). -/
theorem darkChannel_toNat (c : Byte) {l : Byte} (hl : l.toNat < 128) :
    (darkChannel c l).toNat = c.toNat * (2 * l.toNat) / 256 := by
  have hle := scaled_le_self c.toNat (x := 2 * l.toNat) (by omega)
  rw [darkChannel, BitVec.toNat_ofNat, shl, shr, Nat.pow_one, Nat.mul_comm l.toNat]
  exact Nat.mod_eq_of_lt (hle.trans_lt c.isLt)

/-- The result of `Light` never exceeds 255, so no bit is lost (R82). -/
theorem lightChannel_toNat (c : Byte) {l : Byte} (hl : 128 ≤ l.toNat) :
    (lightChannel c l).toNat = c.toNat + (255 - c.toNat) * (2 * (l.toNat - 128)) / 256 := by
  have hc := c.isLt
  have hlight := l.isLt
  have hle := scaled_le_self (255 - c.toNat) (x := 2 * (l.toNat - 128)) (by omega)
  rw [lightChannel, BitVec.toNat_ofNat, shl, shr, Nat.pow_one, Nat.mul_comm (l.toNat - 128)]
  exact Nat.mod_eq_of_lt (by omega)

theorem darkChannel_le (c : Byte) {l : Byte} (hl : l.toNat < 128) : (darkChannel c l).toNat ≤ c.toNat := by
  rw [darkChannel_toNat c hl]
  exact scaled_le_self _ (by omega)

theorem le_lightChannel (c : Byte) {l : Byte} (hl : 128 ≤ l.toNat) : c.toNat ≤ (lightChannel c l).toNat := by
  rw [lightChannel_toNat c hl]
  exact Nat.le_add_right _ _

theorem darkChannel_mono (c : Byte) {l l' : Byte} (hle : l.toNat ≤ l'.toNat) (hl' : l'.toNat < 128) :
    (darkChannel c l).toNat ≤ (darkChannel c l').toNat := by
  rw [darkChannel_toNat c (hle.trans_lt hl'), darkChannel_toNat c hl']
  exact Nat.div_le_div_right (Nat.mul_le_mul_left _ (by omega))

theorem lightChannel_mono (c : Byte) {l l' : Byte} (hl : 128 ≤ l.toNat) (hle : l.toNat ≤ l'.toNat) :
    (lightChannel c l).toNat ≤ (lightChannel c l').toNat := by
  rw [lightChannel_toNat c hl, lightChannel_toNat c (hl.trans hle)]
  exact Nat.add_le_add_left (Nat.div_le_div_right (Nat.mul_le_mul_left _ (by omega))) _

/-! ### The corners of the channel formulas -/

theorem darkChannel_zero (c : Byte) : darkChannel c 0 = 0 :=
  BitVec.eq_of_toNat_eq (by simp [darkChannel_toNat])

theorem darkChannel_127_toNat (c : Byte) : (darkChannel c 127).toNat = c.toNat * 254 / 256 :=
  darkChannel_toNat c (by decide)

theorem darkChannel_black {l : Byte} (hl : l.toNat < 128) : darkChannel 0 l = 0 :=
  BitVec.eq_of_toNat_eq (by rw [darkChannel_toNat 0 hl]; simp)

theorem lightChannel_128 (c : Byte) : lightChannel c 128 = c :=
  BitVec.eq_of_toNat_eq (by simp [lightChannel_toNat])

theorem lightChannel_255_toNat (c : Byte) : (lightChannel c 255).toNat = c.toNat + (255 - c.toNat) * 254 / 256 :=
  lightChannel_toNat c (by decide)

theorem lightChannel_full {l : Byte} (hl : 128 ≤ l.toNat) : lightChannel 255 l = 255 :=
  BitVec.eq_of_toNat_eq (by rw [lightChannel_toNat 255 hl]; simp)

/-- The lightest form of a channel is 253, 254 or 255, and 255 only for a full channel (R82, R86). -/
theorem lightChannel_255_values (c : Byte) :
    (lightChannel c 255).toNat = if c.toNat ≤ 126 then 253 else if c.toNat ≤ 254 then 254 else 255 := by
  have hc := c.isLt
  rw [lightChannel_255_toNat]
  split
  · omega
  · split <;> omega

/-- Settles O12: the formula of `Dark`, whose product is at most `255 * 254`, and its values at both ends of `l`. -/
theorem darkChannelFormula : Obligations.DarkChannelFormula := by
  refine ⟨fun c l hl => ?_, fun c => ⟨darkChannel_zero c, ?_⟩, fun _ => darkChannel_black, by decide, by decide⟩
  · have hscale : 2 * l.toNat ≤ 254 := by omega
    have hprod := mul_le_of_byte (Nat.le_of_lt_succ c.isLt) hscale
    refine ⟨darkChannel_toNat c hl, hscale, hprod, ?_⟩
    rw [darkChannel_toNat c hl]
    exact Nat.div_le_div_right hprod
  · have hc := c.isLt
    rw [darkChannel_127_toNat]
    split
    · omega
    · split <;> omega

/-- Settles O13: the formula of `Light`, whose rise is scaled by at most `254 / 256`, and its values at both ends
of `l`. -/
theorem lightChannelFormula : Obligations.LightChannelFormula := by
  refine ⟨fun c l hl => ?_, fun c => ⟨lightChannel_128 c, lightChannel_255_values c⟩,
    fun _ => lightChannel_full, by decide⟩
  have hscale : (l.toNat - 128) * 2 ≤ 254 := by have := l.isLt; omega
  have hformula := lightChannel_toNat c hl
  rw [Nat.mul_comm 2] at hformula
  exact ⟨hformula, hscale, le_lightChannel c hl, scaled_le_scaled_254 _ hscale, scaled_254_le_self _⟩

/-- Settles O15: both formulas truncate a product of at most `255 * 254` divided by 256. -/
theorem shadeFallsShortByLessThanTwo : Obligations.ShadeFallsShortByLessThanTwo := by
  intro c l
  have hc := c.isLt
  have hlight := l.isLt
  refine ⟨fun hl => ?_, fun hl => ?_⟩
  · rw [darkChannel_toNat c hl]
    exact div_256_error (mul_le_of_byte (by omega) (by omega))
  · rw [lightChannel_toNat c hl, Nat.add_sub_cancel_left]
    exact div_256_error (mul_le_of_byte (by omega) (by omega))

/-! ### `Shade` -/

/-- Settles O11, by `shade_channel`. -/
theorem shadeChannelsIndependent : Obligations.ShadeChannelsIndependent := ⟨shade_channel, by decide⟩

theorem shade_of_lt (base : Rgb) {l : Byte} (hl : l.toNat < 128) : shade base l = shadeDark base l := if_pos hl

theorem shade_of_ge (base : Rgb) {l : Byte} (hl : 128 ≤ l.toNat) : shade base l = shadeLight base l :=
  if_neg (Nat.not_lt.2 hl)

theorem shade_r_of_lt (base : Rgb) {l : Byte} (hl : l.toNat < 128) : (shade base l).r = darkChannel base.r l := by
  rw [shade_of_lt base hl, shadeDark]

theorem shade_r_of_ge (base : Rgb) {l : Byte} (hl : 128 ≤ l.toNat) : (shade base l).r = lightChannel base.r l := by
  rw [shade_of_ge base hl, shadeLight]

/-- The dark form ends at or below the base, the light form starts there (R85). -/
theorem shade_r_mono (base : Rgb) {l l' : Byte} (hle : l.toNat ≤ l'.toNat) :
    (shade base l).r.toNat ≤ (shade base l').r.toNat := by
  rcases Nat.lt_or_ge l'.toNat 128 with hl' | hl'
  · rw [shade_r_of_lt base (hle.trans_lt hl'), shade_r_of_lt base hl']
    exact darkChannel_mono _ hle hl'
  · rw [shade_r_of_ge base hl']
    rcases Nat.lt_or_ge l.toNat 128 with hl | hl
    · rw [shade_r_of_lt base hl]
      exact (darkChannel_le _ hl).trans (le_lightChannel _ hl')
    · rw [shade_r_of_ge base hl]
      exact lightChannel_mono _ hl hle

/-- Settles O14: each form rises, and the values at 127, 128 and 255 are corners of the two formulas. -/
theorem shadeRisesWithLightness : Obligations.ShadeRisesWithLightness := by
  intro c
  have h127 : (shade ⟨c, c, c⟩ 127).r.toNat = c.toNat * 254 / 256 := by
    rw [shade_r_of_lt _ (by decide), darkChannel_127_toNat]
  have h128 : (shade ⟨c, c, c⟩ 128).r = c := by rw [shade_r_of_ge _ (by decide), lightChannel_128]
  have h255 : (shade ⟨c, c, c⟩ 255).r.toNat = c.toNat + (255 - c.toNat) * 254 / 256 := by
    rw [shade_r_of_ge _ (by decide), lightChannel_255_toNat]
  refine ⟨fun l l' hle => shade_r_mono _ hle, h127, h128, ?_, h255⟩
  have hc := c.isLt
  rw [h127, h128]
  split
  · omega
  · split <;> omega

theorem shade_zero (base : Rgb) : shade base 0 = ⟨0, 0, 0⟩ := by
  rw [shade_of_lt base (by decide), shadeDark, darkChannel_zero, darkChannel_zero, darkChannel_zero]

theorem shade_255_channel (base : Rgb) (c : Channel) :
    ((shade base 255).channel c).toNat =
      if (base.channel c).toNat ≤ 126 then 253 else if (base.channel c).toNat ≤ 254 then 254 else 255 := by
  rw [shade_channel, if_neg (by decide), lightChannel_255_values]

/-- A wheel entry has a zero channel, and it rises to 253 only (R72, R86). -/
theorem shade_wheelColor_255_ne_white (w : WheelPattern) (h : Byte) :
    shade (wheelColor w h) 255 ≠ ⟨255, 255, 255⟩ := by
  intro hwhite
  obtain ⟨-, hzero, -⟩ := wheelHasFullZeroAndThirdChannel w h _ rfl
  generalize (w[hueRegion h]'(hueRegion_lt h)).zero = z at hzero
  have hfull : (⟨255, 255, 255⟩ : Rgb).channel z = 255 := by cases z <;> rfl
  have hvalue := shade_255_channel (wheelColor w h) z
  rw [hwhite, hzero, hfull] at hvalue
  exact absurd hvalue (by decide)

/-- Settles O16: the end points hold of every base, but for white, which the zero channel of the wheel excludes. -/
theorem lightnessEndPoints : Obligations.LightnessEndPoints := by
  intro w h
  refine ⟨shade_zero _, ?_, shade_255_channel _⟩
  rw [entry_hueTable]
  exact shade_wheelColor_255_ne_white w h

/-! ### The element forms of a shaded color -/

/-- `PX.DARK` with magnitude `mag` paints the `Shade` at lightness `mag` (R54, R80, R81). -/
theorem exec_pxDark_of_atElement {s : State} (hat : s.AtElement .hslStream) (hue : Byte) (mag : BitVec 7) :
    exec (.pxDark hue mag) s = paint (shade (entry s.hueLut hue) (BitVec.ofNat 8 mag.toNat)) s := by
  have hlight : lightByte false mag = BitVec.ofNat 8 mag.toNat := by simp [lightByte, shl]
  have hvalue : (lightByte false mag).toNat < 128 := by
    have := mag.isLt
    rw [lightByte_toNat, Bool.toNat_false]
    omega
  rw [exec, execPxDark, runForm_of_atElement hat, ← shade_of_lt _ hvalue, hlight]

/-- `PX.LIGHT` with magnitude `mag` paints the `Shade` at lightness `128 + mag` (R54, R80, R82). -/
theorem exec_pxLight_of_atElement {s : State} (hat : s.AtElement .hslStream) (hue : Byte) (mag : BitVec 7) :
    exec (.pxLight hue mag) s = paint (shade (entry s.hueLut hue) (BitVec.ofNat 8 (128 + mag.toNat))) s := by
  have hlight : lightByte true mag = BitVec.ofNat 8 (128 + mag.toNat) := by simp [lightByte, shl]
  have hvalue : 128 ≤ (lightByte true mag).toNat := by
    rw [lightByte_toNat, Bool.toNat_true]
    omega
  rw [exec, execPxLight, runForm_of_atElement hat, ← shade_of_ge _ hvalue, hlight]

/-- Settles O21: both forms paint one pixel under `HSLDEC`. -/
theorem pxHslWritesPixel : Obligations.PxHslWritesPixel := by
  intro s hue mag hmem hat hop hcap hsize
  have hdecoder : s.op ≠ 2 := by rw [hop]; decide
  rw [exec_pxDark_of_atElement hat, exec_pxLight_of_atElement hat]
  exact ⟨paint_writesPixel hmem hdecoder hcap hsize, paint_writesPixel hmem hdecoder hcap hsize⟩

/-- A segment that fits is filled pixel by pixel, and nothing else of `OUT` changes (R39, R41, R112). -/
theorem paint_fillsSegment {c : Rgb} {s : State} (hmem : s.outView.mem.wf = true) (hop : s.op = 2)
    (hcap : segHi s.hw.segTable s.pos ≤ s.outCap) (hsize : segHi s.hw.segTable s.pos ≤ s.outView.size) :
    ∃ t, paint c s = .next t ∧ FillsSegment c s t := by
  have hoff := paintOffset_segmap hop
  have hbytes := paintBytes_segmap hop c
  have hend : paintOffset s + (paintBytes s c).length = segHi s.hw.segTable s.pos := by
    rw [hoff, hbytes, fillBytes_length, segHi_eq]
  have hout (a : Nat) : (paintedState c s).outByte a =
      (s.outView.mem.writeBytes (paintOffset s) (paintBytes s c)).read a := rfl
  refine ⟨paintedState c s, paint_of_fits (hend ▸ hcap) (hend ▸ hsize), rfl, fun j hj => ?_, fun a ha => ?_⟩
  · have hchannel {i : Nat} (hi : i < 3 * (segDesc s.hw.segTable s.pos).count.toNat) :
        (paintedState c s).outByte (segLo s.hw.segTable s.pos + i) =
          if i % 3 = 0 then c.r else if i % 3 = 1 then c.g else c.b := by
      rw [hout, hoff, hbytes, Memory.read_writeBytes_inside hmem _ (by rwa [fillBytes_length]), fillBytes_get]
    have hred := hchannel (i := 3 * j) (by omega)
    have hgreen := hchannel (i := 3 * j + 1) (by omega)
    have hblue := hchannel (i := 3 * j + 2) (by omega)
    rw [if_pos (by omega)] at hred
    rw [if_neg (by omega), if_pos (by omega)] at hgreen
    rw [if_neg (by omega), if_neg (by omega)] at hblue
    rw [State.pixelAt, Nat.add_assoc, Nat.add_assoc, hred, hgreen, hblue]
  · have hoffSegment : a < segLo s.hw.segTable s.pos ∨ segHi s.hw.segTable s.pos ≤ a := by
      simp only [InSegment] at ha
      omega
    exact (hout a).trans (Memory.read_writeBytes_outside hmem (by rwa [hend, hoff]))

/-- Settles O22: both forms fill one segment under `SEGMAP`. -/
theorem pxHslFillsSegment : Obligations.PxHslFillsSegment := by
  intro s hue mag hmem hat hop hcap hsize
  rw [exec_pxDark_of_atElement hat, exec_pxLight_of_atElement hat]
  exact ⟨paint_fillsSegment hmem hop hcap hsize, paint_fillsSegment hmem hop hcap hsize⟩

end Sys2Proof.Machine
end

section
/-! PROOFS. Statements of 42_hsl_decoder.md: an operation left running at the element level and its end (R91, R140,
R141), the idle machine (R151), and what `HSLDEC` leaves in `OUT` (R92). -/

namespace Sys2Proof.Machine

/-! ### The start and the end at the element level -/

/-- Settles O29: each operation passes its own check, so it is started and no element is run. -/
theorem elementLevelStartsOperation : Obligations.ElementLevelStartsOperation := by
  intro s hcan hlevel
  refine ⟨fun heven hroom => ?_, fun hroom => ?_, fun heven hfit => ?_⟩
  · exact runOperation_of_element hcan hlevel (hsldecCheck_eq_none.2 ⟨heven, hroom⟩)
  · exact runOperation_of_element hcan hlevel (rgbdecCheck_eq_none.2 hroom)
  · exact runOperation_of_element hcan hlevel (segmapCheck_eq_none.2 ⟨heven, hfit⟩)

/-- The CLM's own move once the stream is consumed ends the operation with `OK` (R91, R141). -/
theorem clmStep_of_consumed {s : State} (hbusy : s.busy = true) (hend : elementCount s.op s.inLen ≤ s.pos) :
    clmStep s = .next (endOp .ok s) := by
  rw [clmStep, if_pos hbusy, runningStep, if_neg (Nat.not_lt.2 hend)]

/-- Settles O43: the CLM's move ends the stream, over the host's list held or with its reset one step nearer; with
nothing to do the machine stays as it is. -/
theorem stepEndsOperationOrIdles : Obligations.StepEndsOperationOrIdles := by
  refine ⟨fun s hbusy hend hhost => ?_, fun s k tail hbusy hend hhost => ?_, fun s hidle hready hhost => ?_⟩
  · exact (step_of_busy hbusy hhost).trans (clmStep_of_consumed hbusy hend)
  · exact (step_of_pending_reset hhost).trans (clmStep_of_consumed hbusy hend)
  · exact (runSteps_one s).symm.trans (runSteps_of_idle hidle hready hhost 1)

/-! ### The stream of a decoder -/

/-- Under a decoder the stream's last element is one pixel, painted after the pixels before it (R38, R42). -/
theorem streamMem_succ_decoder {s : State} (hop : s.op ≠ 2) (n : Nat) (m : Memory) :
    streamMem s 0 (n + 1) m = (streamMem s 0 n m).writeBytes (3 * n) (pixelBytes (elementColor s n)) := by
  have hop' : ({ s with pos := n } : State).op ≠ 2 := hop
  rw [streamMem_succ, Nat.zero_add, paintOffset_decoder hop', paintBytes_decoder hop']

/-- The pixel of an element lies below the pixels of all later ones, so it stays as painted (R38). -/
theorem read_streamMem_pixel {s : State} (hop : s.op ≠ 2) {m : Memory} (hm : m.wf = true) {n i j : Nat}
    (hi : i < n) (hj : j < 3) :
    (streamMem s 0 n m).read (3 * i + j) = (pixelBytes (elementColor s i))[j] := by
  induction n with
  | zero => exact absurd hi (Nat.not_lt_zero i)
  | succ n ih =>
    have hprefix := wf_streamMem s hm 0 n
    rw [streamMem_succ_decoder hop]
    rcases Nat.lt_succ_iff_lt_or_eq.1 hi with hlt | rfl
    · rw [Memory.read_writeBytes_outside hprefix (Or.inl (by omega)), ih hlt]
    · exact Memory.read_writeBytes_inside hprefix _ hj

/-- A decoder paints nothing from offset `3n` on (R92, R103). -/
theorem read_streamMem_beyond {s : State} (hop : s.op ≠ 2) {m : Memory} (hm : m.wf = true) {n a : Nat}
    (ha : 3 * n ≤ a) : (streamMem s 0 n m).read a = m.read a := by
  induction n with
  | zero => rfl
  | succ n ih =>
    have hpixel : 3 * n + (pixelBytes (elementColor s n)).length ≤ a := by
      rw [pixelBytes_length]
      omega
    rw [streamMem_succ_decoder hop, Memory.read_writeBytes_outside (wf_streamMem s hm 0 n) (Or.inr hpixel),
      ih (by omega)]

/-- A decoder that passed its check leaves at `3i` the color of element `i` (R90, R100). -/
theorem completed_pixelAt {op : BitVec 2} {s : State} (hop : op ≠ 2) (hs : s.outView.mem.wf = true)
    (hpass : operationCheck (started op s) = none) {i : Nat} (hi : i < elementCount op s.inLen) :
    (completed op s).pixelAt (3 * i) = elementColor (started op s) i := by
  have hchannel {j : Nat} (hj : j < 3) :
      (completed op s).outByte (3 * i + j) = (pixelBytes (elementColor (started op s) i))[j] := by
    rw [completed_of_pass hpass, outByte_afterOperation]
    exact read_streamMem_pixel hop hs hi hj
  have hred : (completed op s).outByte (3 * i) = (elementColor (started op s) i).r := hchannel (j := 0) (by decide)
  have hgreen : (completed op s).outByte (3 * i + 1) = (elementColor (started op s) i).g := hchannel (by decide)
  have hblue : (completed op s).outByte (3 * i + 2) = (elementColor (started op s) i).b := hchannel (by decide)
  rw [State.pixelAt, hred, hgreen, hblue]

/-- A decoder that passed its check leaves the bytes from `3n` on as they were (R92, R103). -/
theorem completed_outByte_beyond {op : BitVec 2} {s : State} (hop : op ≠ 2) (hs : s.outView.mem.wf = true)
    (hpass : operationCheck (started op s) = none) {a : Nat} (ha : 3 * elementCount op s.inLen ≤ a) :
    (completed op s).outByte a = s.outByte a := by
  rw [completed_of_pass hpass, outByte_afterOperation]
  exact read_streamMem_beyond hop hs ha

/-- Settles O26: the operation passes its checks, and `completed` is the state it ends in. -/
theorem hsldecDecodesEveryPair : Obligations.HsldecDecodesEveryPair := by
  intro s hs hcan htr hlevel heven hroom
  have hpass : operationCheck (started 0 s) = none := hsldecCheck_eq_none.2 ⟨heven, hroom⟩
  refine ⟨completed 0 s, exec_of_invocation rfl hcan htr hlevel, ?_, fun i hi => ?_, fun a ha => ?_⟩
  · rw [completed_of_pass hpass]
    rfl
  · exact completed_pixelAt (by decide) hs hpass hi
  · exact completed_outByte_beyond (by decide) hs hpass ha

end Sys2Proof.Machine
end

section
/-! PROOFS. Statements of 43_packed_rgb_decoder.md: what `RGBDEC` leaves in `OUT`, and the stream recovered from it
(R103). -/

namespace Sys2Proof.Machine

/-- An element of the packed stream is one byte (R53, R57). -/
theorem elementCount_rgbdec (len : Nat) : elementCount 1 len = len := Nat.div_one len

/-- No two packed bytes have the same table entry, so the entry tells the byte (R76). -/
theorem entry_packTable_injective {p q : Byte} (h : entry packTable p = entry packTable q) : p = q := by
  rw [entry_packTable, entry_packTable] at h
  exact packColor_injective h

/-- `RGBDEC` that passed its check leaves at `3i` the table entry of byte `i` (R100, R101, R103). -/
theorem completed_rgbdec_pixelAt {s : State} (hs : s.outView.mem.wf = true)
    (hpass : operationCheck (started 1 s) = none) {i : Nat} (hi : i < s.inLen) :
    (completed 1 s).pixelAt (3 * i) = s.rgbColor i :=
  completed_pixelAt (by decide) hs hpass (by rwa [elementCount_rgbdec])

/-- Settles O27: the operation passes its check and ends in `completed`; the stream is recovered pixel by pixel,
because each is the entry of its byte and the table is injective. -/
theorem rgbdecDecodesEveryByte : Obligations.RgbdecDecodesEveryByte := by
  intro s hs hcan htr hlevel hroom
  have hpass : operationCheck (started 1 s) = none := rgbdecCheck_eq_none.2 hroom
  refine ⟨completed 1 s, exec_of_invocation rfl hcan htr hlevel, ?_, fun i hi => ?_, fun a ha => ?_,
    fun htable i b hi hb => ?_⟩
  · rw [completed_of_pass hpass]
    rfl
  · exact completed_rgbdec_pixelAt hs hpass hi
  · exact completed_outByte_beyond (by decide) hs hpass (by rwa [elementCount_rgbdec])
  · have hpixel : entry packTable b = s.rgbColor i := hb.symm.trans (completed_rgbdec_pixelAt hs hpass hi)
    rw [State.rgbColor, htable] at hpixel
    exact entry_packTable_injective hpixel

end Sys2Proof.Machine
end

section
/-! PROOFS. Statements of 44_segment_scatter.md: what `SEGMAP` leaves in `OUT` (R112, R118), and the capacity that
suffices (R116). -/

namespace Sys2Proof.Machine

/-! ### One segment filled -/

/-- A byte of a filled segment is its channel of the color, counted from the segment's start (R112, R118). -/
theorem read_fill_of_inSegment {m : Memory} (hm : m.wf = true) (c : Rgb) {t : SegTable} {k a : Nat}
    (h : InSegment t k a) :
    (m.writeBytes (segLo t k) (fillBytes c (segDesc t k).count.toNat)).read a = fillByte c (segLo t k) a := by
  obtain ⟨hlo, hhi⟩ := h
  rw [segHi_eq] at hhi
  have hi : a - segLo t k < (fillBytes c (segDesc t k).count.toNat).length := by
    rw [fillBytes_length]
    omega
  have hread := Memory.read_writeBytes_inside hm (segLo t k) hi
  rwa [Nat.add_sub_cancel' hlo, fillBytes_get] at hread

/-- Filling a segment leaves every byte outside it as it was (R41). -/
theorem read_fill_of_not_inSegment {m : Memory} (hm : m.wf = true) (c : Rgb) {t : SegTable} {k a : Nat}
    (h : ¬ InSegment t k a) :
    (m.writeBytes (segLo t k) (fillBytes c (segDesc t k).count.toNat)).read a = m.read a := by
  refine Memory.read_writeBytes_outside hm ?_
  rw [fillBytes_length, ← segHi_eq]
  rw [InSegment] at h
  omega

/-! ### The stream of `SEGMAP` -/

/-- Under `SEGMAP` the stream's last element fills its segment, over the segments before it (R42, R112). -/
theorem streamMem_succ_segmap {s : State} (hop : s.op = 2) (n : Nat) (m : Memory) :
    streamMem s 0 (n + 1) m = (streamMem s 0 n m).writeBytes (segLo s.hw.segTable n)
      (fillBytes (s.hslColor n) (segDesc s.hw.segTable n).count.toNat) := by
  have hop' : ({ s with pos := n } : State).op = 2 := hop
  have hcolor : elementColor s n = s.hslColor n := if_neg (by rw [hop]; decide)
  rw [streamMem_succ, Nat.zero_add, paintOffset_segmap hop', paintBytes_segmap hop', hcolor]

/-- The elements from `j` on leave a byte that none of their segments covers as the first `j` left it. -/
theorem read_streamMem_of_uncovered {s : State} (hop : s.op = 2) {m : Memory} (hm : m.wf = true) {j n a : Nat}
    (hjn : j ≤ n) (hnone : ∀ k, j ≤ k → k < n → ¬ InSegment s.hw.segTable k a) :
    (streamMem s 0 n m).read a = (streamMem s 0 j m).read a := by
  induction n, hjn using Nat.le_induction with
  | base => rfl
  | succ n hjn ih =>
    rw [streamMem_succ_segmap hop,
      read_fill_of_not_inSegment (wf_streamMem s hm 0 n) _ (hnone n hjn n.lt_succ_self),
      ih fun k hjk hkn => hnone k hjk (Nat.lt_succ_of_lt hkn)]

/-- A byte shows the last element whose segment covers it: that element paints it, and no later one does (R118). -/
theorem read_streamMem_of_last {s : State} (hop : s.op = 2) {m : Memory} (hm : m.wf = true) {k n a : Nat}
    (hkn : k < n) (hcover : InSegment s.hw.segTable k a)
    (hlast : ∀ k', k < k' → k' < n → ¬ InSegment s.hw.segTable k' a) :
    (streamMem s 0 n m).read a = fillByte (s.hslColor k) (segLo s.hw.segTable k) a := by
  rw [read_streamMem_of_uncovered hop hm hkn hlast, streamMem_succ_segmap hop,
    read_fill_of_inSegment (wf_streamMem s hm 0 k) _ hcover]

/-- An element of the stream of `SEGMAP` is two bytes (R53). -/
theorem elementCount_segmap (len : Nat) : elementCount 2 len = len / 2 := rfl

/-- Settles O28: the operation passes its checks and ends in `completed`, whose bytes are those of the stream. -/
theorem segmapPaintsLastSegment : Obligations.SegmapPaintsLastSegment := by
  intro s hs hcan htr hlevel heven hfit
  have hpass : operationCheck (started 2 s) = none := segmapCheck_eq_none.2 ⟨heven, hfit⟩
  have hbyte (a : Nat) : (completed 2 s).outByte a =
      (streamMem (started 2 s) 0 (s.inLen / 2) s.outView.mem).read a := by
    rw [completed_of_pass hpass, outByte_afterOperation, elementCount_segmap]
  refine ⟨completed 2 s, exec_of_invocation rfl hcan htr hlevel, ?_, fun a hnone => ?_,
    fun a k hk hcover hlast => ?_⟩
  · rw [completed_of_pass hpass]
    rfl
  · exact (hbyte a).trans (read_streamMem_of_uncovered rfl hs (Nat.zero_le _) fun k _ hk => hnone k hk)
  · exact (hbyte a).trans (read_streamMem_of_last rfl hs hk hcover hlast)

/-! ### A capacity of whole digits -/

/-- A segment of the first `n` ends inside the digits that `n` elements touch (R40, R116). -/
theorem segHi_le_wholeDigits (t : SegTable) {k n : Nat} (h : k < n) : segHi t k ≤ 564 * ((n + 31) / 32) := by
  have hdigit := segHi_le_digit t k
  omega

/-- When the check of `SEGMAP` raises `OutOfBounds` (R113, R114). -/
theorem segmapCheck_eq_outOfBounds {s : State} : segmapCheck s = some .outOfBounds ↔
    s.inLen % 2 = 0 ∧ ∃ k, k < s.inLen / 2 ∧ s.outCap < segHi s.hw.segTable k := by
  rw [segmapCheck]
  split_ifs with hodd hfit
  · simp [hodd]
  · rw [segmentsFit_iff] at hfit
    simpa using fun _ => hfit
  · rw [segmentsFit_iff] at hfit
    push Not at hfit
    simpa using ⟨Nat.mod_two_ne_one.1 hodd, hfit⟩

/-- A completed operation that reports a fault kind was given it by its check (R134). -/
theorem check_of_result_ne_ok {op : BitVec 2} {check : State → Option Result} {s t : State}
    (h : runOperation op check s = .next t) (hdone : t.done = true) (hresult : t.result ≠ .ok) :
    check (started op s) = some t.result := by
  obtain ⟨-, ⟨k, hk, rfl⟩ | ⟨-, -, rfl⟩ | ⟨-, -, u, -, rfl⟩⟩ := runOperation_eq_next h
  · exact hk
  · exact Bool.noConfusion hdone
  · exact absurd rfl hresult

/-- Settles O36: every segment ends inside the digits touched, so the check has no segment to report. -/
theorem wholeDigitsSuffice : Obligations.WholeDigitsSuffice := by
  intro s hcap
  have hfit (k : Nat) (hk : k < s.inLen / 2) : segHi s.hw.segTable k ≤ s.outCap :=
    (segHi_le_wholeDigits s.hw.segTable hk).trans hcap
  refine ⟨hfit, fun t ht hdone hresult => ?_⟩
  have hcheck : segmapCheck (started 2 s) = some t.result := check_of_result_ne_ok ht hdone (by rw [hresult]; decide)
  rw [hresult] at hcheck
  obtain ⟨-, k, hk, hout⟩ := segmapCheck_eq_outOfBounds.1 hcheck
  exact Nat.not_lt.2 (hfit k hk) hout

end Sys2Proof.Machine
end

section
/-! PROOFS. Statements of 60_exceptions.md: the fault matrix (R138) and the entry of a fault (R134), the end of a
running operation (R141), and who moves while the host waits (R143, R150, R151). -/

namespace Sys2Proof.Machine

/-! ### Which fault kind a check raises -/

/-- When the check of `HSLDEC` raises `InvalidLength`, its first test (R90, R133). -/
theorem hsldecCheck_eq_invalidLength {s : State} : hsldecCheck s = some .invalidLength ↔ s.inLen % 2 = 1 := by
  rw [hsldecCheck]
  split_ifs with hodd <;> simp [hodd]

/-- When the check of `HSLDEC` raises `BufferTooSmall`, its second test (R90, R133). -/
theorem hsldecCheck_eq_bufferTooSmall {s : State} :
    hsldecCheck s = some .bufferTooSmall ↔ s.inLen % 2 = 0 ∧ s.outCap < 3 * (s.inLen / 2) := by
  rw [hsldecCheck]
  split_ifs with hodd hsmall
  · simp [hodd]
  · simpa using ⟨Nat.mod_two_ne_one.1 hodd, hsmall⟩
  · simp [hsmall]

theorem hsldecCheck_ne_outOfBounds (s : State) : hsldecCheck s ≠ some .outOfBounds := by
  rw [hsldecCheck]
  split_ifs <;> nofun

/-- When the check of `RGBDEC` raises `BufferTooSmall` (R100). -/
theorem rgbdecCheck_eq_bufferTooSmall {s : State} :
    rgbdecCheck s = some .bufferTooSmall ↔ s.outCap < 3 * s.inLen := by
  rw [rgbdecCheck]
  split_ifs with hsmall <;> simp [hsmall]

/-- The check of `RGBDEC` raises no other kind (R138). -/
theorem eq_bufferTooSmall_of_rgbdecCheck {s : State} {k : Result} (h : rgbdecCheck s = some k) :
    k = .bufferTooSmall := by
  rw [rgbdecCheck] at h
  split_ifs at h
  exact (Option.some.inj h).symm

/-- When the check of `SEGMAP` raises `InvalidLength`, its first test (R110, R133). -/
theorem segmapCheck_eq_invalidLength {s : State} : segmapCheck s = some .invalidLength ↔ s.inLen % 2 = 1 := by
  rw [segmapCheck]
  split_ifs with hodd <;> simp [hodd]

theorem segmapCheck_ne_bufferTooSmall (s : State) : segmapCheck s ≠ some .bufferTooSmall := by
  rw [segmapCheck]
  split_ifs <;> nofun

/-! ### The entry of a fault -/

/-- An operation that ended with a fault kind left the fault entry of R134: that kind, `POS` 0, nothing written. -/
theorem eq_afterOperation_of_result_ne_ok {op : BitVec 2} {check : State → Option Result} {s t : State}
    (h : runOperation op check s = .next t) (hdone : t.done = true) (hresult : t.result ≠ .ok) :
    t = afterOperation s op 0 t.result s.outView.mem := by
  have hcheck := check_of_result_ne_ok h hdone hresult
  have hend := runOperation_of_check (runOperation_eq_next h).1 hcheck
  rw [h] at hend
  exact Host.Outcome.next.inj hend

/-- Settles O32: only a check reports a fault kind, and it is raised before any element is run. -/
theorem faultKindLeavesOutputUntouched : Obligations.FaultKindLeavesOutputUntouched := by
  intro s t i hplace h hdone hresult
  obtain ⟨op, hi⟩ := opcode_of_place hplace
  obtain ⟨check, hexec, -, -⟩ := exec_of_opcode hi s
  rw [eq_afterOperation_of_result_ne_ok (hexec.symm.trans h) hdone hresult]
  exact ⟨rfl, rfl, rfl, rfl⟩

/-! ### The fault matrix -/

theorem result_of_buildHue {s t : State} (h : exec .buildHue s = .next t) : t.result = s.result := by
  cases hbuilt : s.hueBuilt with
  | true => cases (secondBuildChangesNothing.1 s hbuilt).symm.trans h; rfl
  | false => cases (exec_buildHue_of_unbuilt hbuilt).symm.trans h; rfl

theorem result_of_buildPack {s t : State} (h : exec .buildPack s = .next t) : t.result = s.result := by
  cases hbuilt : s.packBuilt with
  | true => cases (secondBuildChangesNothing.2 s hbuilt).symm.trans h; rfl
  | false => cases (exec_buildPack_of_unbuilt hbuilt).symm.trans h; rfl

/-- Settles O30: each cell of the matrix is a test of the operation's check; a cell that is never reached is a kind the
check does not raise. -/
theorem faultMatrix : Obligations.FaultMatrix := by
  constructor
  · intro s hcan
    refine ⟨fun hodd => ?_, fun heven hsmall => ?_, fun hsmall => ?_, fun hodd => ?_, fun heven hout => ?_⟩
    · exact runOperation_of_check hcan (hsldecCheck_eq_invalidLength.2 hodd)
    · exact runOperation_of_check hcan (hsldecCheck_eq_bufferTooSmall.2 ⟨heven, hsmall⟩)
    · exact runOperation_of_check hcan (rgbdecCheck_eq_bufferTooSmall.2 hsmall)
    · exact runOperation_of_check hcan (segmapCheck_eq_invalidLength.2 hodd)
    · exact runOperation_of_check hcan (segmapCheck_eq_outOfBounds.2 ⟨heven, hout⟩)
  · intro s t
    refine ⟨fun h hdone hresult => ?_, fun h hdone => ?_, fun h hdone hresult => ?_, result_of_buildHue,
      result_of_buildPack⟩
    · have hcheck : hsldecCheck (started 0 s) = some t.result := check_of_result_ne_ok h hdone (by simp [hresult])
      exact hsldecCheck_ne_outOfBounds _ (hresult ▸ hcheck)
    · exact or_iff_not_imp_left.2 fun hfault =>
        eq_bufferTooSmall_of_rgbdecCheck (check_of_result_ne_ok h hdone hfault)
    · have hcheck : segmapCheck (started 2 s) = some t.result := check_of_result_ne_ok h hdone (by simp [hresult])
      exact segmapCheck_ne_bufferTooSmall _ (hresult ▸ hcheck)

/-! ### The end of a running operation -/

/-- Settles O53: a running operation is sound on truthful views, so its steps are the elements left and the end. -/
theorem runningOperationEnds : Obligations.RunningOperationEnds := by
  intro s hinv htr hbusy hhost
  obtain ⟨-, -, -, -, hpos⟩ := hinv.running hbusy
  have hsound := sound_of_running hinv htr hbusy
  exact ⟨_, (runSteps_of_sound hsound hhost (Nat.add_sub_cancel' hpos)).trans (runToEnd_of_sound hsound hpos),
    rfl, rfl, rfl, rfl⟩

/-! ### The CLM's own move while no operation runs -/

theorem step_of_wait {s : State} {rest : List HostAction} (hbusy : s.busy = false) (hhost : s.host = .wait :: rest) :
    step s = clmStep { s with host := rest } :=
  step_of_host hbusy hhost (by simp)

/-- A ready CLM with no operation running stays as it is (R151). -/
theorem clmStep_of_ready {s : State} (hbusy : s.busy = false) (hready : s.lutReady = true) : clmStep s = .next s := by
  simp [clmStep, hbusy, hready]

/-- In the building phase the CLM runs its next build (R150). -/
theorem clmStep_of_building {s : State} (hbusy : s.busy = false) (hready : s.lutReady = false) :
    clmStep s = exec (nextBuild s) s := by
  simp [clmStep, hbusy, hready]

theorem clmStep_of_hue_unbuilt {s : State} (hbusy : s.busy = false) (hready : s.lutReady = false)
    (hhue : s.hueBuilt = false) : clmStep s = exec .buildHue s := by
  simp [clmStep_of_building hbusy hready, nextBuild, hhue]

theorem clmStep_of_hue_built {s : State} (hbusy : s.busy = false) (hready : s.lutReady = false)
    (hhue : s.hueBuilt = true) : clmStep s = exec .buildPack s := by
  simp [clmStep_of_building hbusy hready, nextBuild, hhue]

/-- Settles O57: both actions hand the step to the CLM, which is ready or building. -/
theorem waitAndPendingResetLetTheMachineMove : Obligations.WaitAndPendingResetLetTheMachineMove := by
  intro s rest after hbusy hhost
  have hstep : step s = clmStep { s with host := after } := by
    rcases hhost with ⟨hwait, rfl⟩ | ⟨k, hpending, rfl⟩
    · exact step_of_wait hbusy hwait
    · exact step_of_pending_reset hpending
  rw [hstep]
  refine ⟨fun hready => ?_, fun hready hhue => ?_, fun hready hhue => ?_⟩
  · exact clmStep_of_ready hbusy hready
  · exact clmStep_of_hue_unbuilt hbusy hready hhue
  · exact clmStep_of_hue_built hbusy hready hhue

end Sys2Proof.Machine
end

section
/-! PROOFS. Statements of 70_reset_and_hazards.md: the building phase and the state it reaches (R77, R150), and the
fault of an element outside the input view (R154, R159). -/

namespace Sys2Proof.Machine

/-! ### The building phase -/

theorem step_of_no_host {s : State} (hhost : s.host = []) : step s = clmStep s := by
  simp only [step, sequencerStep, hhost]

theorem step_of_hue_unbuilt {s : State} (hbusy : s.busy = false) (hready : s.lutReady = false) (hhost : s.host = [])
    (hhue : s.hueBuilt = false) : step s = exec .buildHue s :=
  (step_of_no_host hhost).trans (clmStep_of_hue_unbuilt hbusy hready hhue)

theorem step_of_hue_built {s : State} (hbusy : s.busy = false) (hready : s.lutReady = false) (hhost : s.host = [])
    (hhue : s.hueBuilt = true) : step s = exec .buildPack s :=
  (step_of_no_host hhost).trans (clmStep_of_hue_built hbusy hready hhue)

/-- Settles O42: with nothing for the host to do the CLM moves, and its move is `BUILD.HUE` until that is complete,
then `BUILD.PACK`. -/
theorem stepRunsNextBuild : Obligations.StepRunsNextBuild := fun _ hbusy hready hhost =>
  ⟨step_of_hue_unbuilt hbusy hready hhost, step_of_hue_built hbusy hready hhost⟩

/-- Two steps of the building phase run both builds, and the second raises `LUT_READY` (R77, R150). -/
theorem runSteps_two_of_unbuilt {s : State} (hbusy : s.busy = false) (hready : s.lutReady = false) (hhost : s.host = [])
    (hhue : s.hueBuilt = false) (hpack : s.packBuilt = false) :
    runSteps 2 s = .next
      { s with
        hueLut := hueTable s.hw.wheel
        packLut := packTable
        hueBuilt := true
        packBuilt := true
        lutReady := true } := by
  have hfirst : step s = .next { s with hueLut := hueTable s.hw.wheel, hueBuilt := true, lutReady := s.packBuilt } :=
    (step_of_hue_unbuilt hbusy hready hhost hhue).trans (exec_buildHue_of_unbuilt hhue)
  rw [runSteps_of_next hfirst, runSteps_one, step_of_hue_built]
  exacts [exec_buildPack_of_unbuilt hpack, hbusy, hpack, hhost, rfl]

/-- Settles O20: reset under `build` leaves both tables unbuilt, and the two builds fill them as `rom` does. -/
theorem buildPhaseReachesRomState : Obligations.BuildPhaseReachesRomState := by
  intro hw hbuild
  have hhue : (State.resetOf hw).hueBuilt = false := by simp [State.resetOf, hbuild]
  have hpack : (State.resetOf hw).packBuilt = false := by simp [State.resetOf, hbuild]
  exact runSteps_two_of_unbuilt rfl (resetOf_of_build hbuild) rfl hhue hpack

/-! ### An element outside the input view -/

theorem readIn_of_outside {s : State} {a : Nat} (h : s.inView.size ≤ a) : readIn s a = none :=
  if_neg fun hin => Nat.not_lt.2 h hin.2

/-- One offset the input view does not have leaves the whole read without an answer (R9, R35). -/
theorem readInBytes_of_outside {s : State} {a n : Nat} (hn : n ≠ 0) (h : s.inView.size < a + n) :
    readInBytes s a n = none := by
  induction n generalizing a with
  | zero => exact absurd rfl hn
  | succ n ih =>
    by_cases hhead : s.inView.size ≤ a
    · simp [readInBytes, readIn_of_outside hhead]
    · have htail : readInBytes s (a + 1) n = none := ih (by omega) (by omega)
      simp [readInBytes, htail]

theorem elementLength_ne_zero (op : BitVec 2) : elementLength op ≠ 0 := by
  unfold elementLength
  split <;> decide

theorem elementStep_of_unreadable {s : State} (hform : elementPlace s.op ≠ none) (hbytes : elementBytes s = none) :
    elementStep s = .fault .readOutsideView := by
  obtain ⟨p, hp⟩ := Option.ne_none_iff_exists'.1 hform
  simp only [elementStep, hp, hbytes]

/-- While an operation runs and no reset is due the CLM moves, whatever of the host's list is held (R156). -/
theorem step_of_busy_of_no_due_reset {s : State} (hbusy : s.busy = true)
    (hhost : ∀ tail, s.host ≠ .reset 0 :: tail) : ∃ held, step s = clmStep { s with host := held } := by
  rcases step_cases s with ⟨held, -, hstep⟩ | ⟨tail, hdue, -⟩ | ⟨-, -, -, hidle, -⟩
  · exact ⟨held, hstep⟩
  · exact absurd hdue (hhost tail)
  · exact absurd hbusy (by simp [hidle])

/-- Settles O55: the element's last byte is missing, whatever of the host's list is held. -/
theorem elementOutsideInputViewFaults : Obligations.ElementOutsideInputViewFaults := by
  intro s hbusy hform hleft hout hhost
  obtain ⟨held, hstep⟩ := step_of_busy_of_no_due_reset hbusy hhost
  have hbytes : elementBytes { s with host := held } = none :=
    (elementBytes_withHost s held).trans (readInBytes_of_outside (elementLength_ne_zero s.op) hout)
  rw [hstep, clmStep, if_pos hbusy, runningStep, if_pos hleft]
  exact elementStep_of_unreadable hform hbytes

end Sys2Proof.Machine
end
